-- ==== Sys2Proof/Word.lean ====
section
/-! DEFINITION. The word and byte types (00_scope.md R7, R10, R11) and a group of four like things.
Every word is unsigned; `+`, `-`, `<<<` on `Word` are modulo 2^32 and `>>>` is the logical shift (R11). -/

namespace Sys2Proof

/-- A datapath word: `WORD` = 32 bits, bit 31 the most significant (R7, R10). Lengths have the same
width, `LENW` = 32 (R9). -/
abbrev Word := BitVec 32

/-- A byte of the buffer memory or of a key (R10). -/
abbrev Byte := BitVec 8

/-- Four like things in order: the key words `K[0..3]` (`Quad Word`), the four bytes of one word,
lowest offset first (`Quad Byte`), the sixteen key bytes as four groups of four
(`Quad (Quad Byte)`: group i holds `key[4i .. 4i+3]`, R25). -/
structure Quad (α : Type) where
  x0 : α
  x1 : α
  x2 : α
  x3 : α
deriving DecidableEq, Repr

end Sys2Proof
end

