-- ==== Sys2Proof/Config.lean ====
section
/-! DEFINITION. What an implementation fixes (00_scope.md R9: `XADDR`, `NMAX`, `Mapped`) and the free
values. The parameters are plain data, so that a statement about every state is a statement about
every implementation. The free values are opaque: no proof can see what they are. -/

namespace Sys2Proof

/-- A run of byte addresses `base .. base + size - 1`. -/
structure Region where
  base : Nat
  size : Nat
deriving DecidableEq, Repr

/-- The parameters R9 leaves to the implementation. `LENW` is fixed at 32 and is the width of `Word`. -/
structure Config where
  /-- `XADDR`: width in bits of a buffer-memory address, at least 8 (R9, D4). -/
  xaddr : Nat
  /-- `NMAX`: largest word count engine C's working buffer holds, at least 16 (R9, D12). -/
  nmax : Nat
  /-- `Mapped` (R9, D22), given by its complement: the addresses that are NOT implemented. -/
  unmapped : List Region
deriving DecidableEq, Repr

/-- By how much `NMAX` exceeds the least value R9 allows. R9 gives `NMAX` no default, so this is a free
value (notes/assumptions/2.md). -/
opaque Config.nmaxAboveLeast : Nat

/-- What a byte of `M` that nothing has written since reset holds: "it keeps whatever the platform
gives it" (10_state.md R33; 93 U12, any value). Free value, one for each address (notes/assumptions/1.md). -/
opaque Config.platformByte : Nat → Byte

/-- Reset during a command (R201): whether the destination byte at the address holds the new value;
"unspecified which, byte by byte". Free value, applied to `State.tick` and the address
(notes/assumptions/5.md). -/
opaque Config.abortedByteIsNew : Nat → Nat → Bool

/-- The word at a position of `words_in` for which the presented command holds no word. R73 gives the
port `count` words, so no host presents such a command; free value, applied to `State.tick` and the
position (notes/assumptions/6.md). -/
opaque Config.undrivenWord : Nat → Nat → Word

/-- The defaults of R9: `XADDR` = 32, everything mapped, `NMAX` unknown but at least 16. -/
def Config.standard : Config :=
  { xaddr := 32, nmax := Config.nmaxAboveLeast + 16, unmapped := [] }

end Sys2Proof
end

