-- ==== Sys2Proof/Syntax.lean ====
section
/-! DEFINITION. What the host presents on the command port (30_encoding.md R70 to R73), the fifteen
commands as abstract instructions (R74), and the events of the two agents' interface (00_scope.md R16). -/

namespace Sys2Proof

/-- The command port at the moment a command is issued: the 8-bit code beside every operand port
(R70, R73). Every operand is an unsigned number; addresses are byte addresses. -/
structure Command where
  code : BitVec 8
  keyAddr : Nat
  keyLen : Word
  blockSize : Word
  dstAddr : Nat
  dstLen : Word
  srcAddr : Nat
  srcLen : Word
  count : Word
  wordsIn : List Word
deriving DecidableEq, Repr

/-- The formats of R72: which operand ports a command samples. -/
inductive Format where
  | n
  | k
  | kc
  | x
  | r
  | w
deriving DecidableEq, Repr

/-- The fifteen commands of R74, each with the operand values its format samples, in the order of R72. -/
inductive Instr where
  /-- `CDC.B2W` (R94). -/
  | cdcB2w (srcAddr : Nat) (srcLen : Word)
  /-- `CDC.W2B` (R95). -/
  | cdcW2b (dstAddr : Nat) (dstLen count : Word) (wordsIn : List Word)
  /-- `A.CONSTRUCT` (R104). -/
  | aConstruct (keyAddr : Nat) (keyLen : Word)
  /-- `A.BLOCKSIZE` (R105). -/
  | aBlocksize
  /-- `A.ENCRYPT` (R106). -/
  | aEncrypt (dstAddr : Nat) (dstLen : Word) (srcAddr : Nat) (srcLen : Word)
  /-- `A.DECRYPT` (R107). -/
  | aDecrypt (dstAddr : Nat) (dstLen : Word) (srcAddr : Nat) (srcLen : Word)
  /-- `B.CONSTRUCT` (R122). -/
  | bConstruct (keyAddr : Nat) (keyLen : Word)
  /-- `B.BLOCKSIZE` (R126). -/
  | bBlocksize
  /-- `B.ENCRYPT` (R127). -/
  | bEncrypt (dstAddr : Nat) (dstLen : Word) (srcAddr : Nat) (srcLen : Word)
  /-- `B.DECRYPT` (R128). -/
  | bDecrypt (dstAddr : Nat) (dstLen : Word) (srcAddr : Nat) (srcLen : Word)
  /-- `B.WIPE` (R129). -/
  | bWipe
  /-- `C.CONSTRUCT` (R146). -/
  | cConstruct (keyAddr : Nat) (keyLen blockSize : Word)
  /-- `C.BLOCKSIZE` (R147). -/
  | cBlocksize
  /-- `C.ENCRYPT` (R148). -/
  | cEncrypt (dstAddr : Nat) (dstLen : Word) (srcAddr : Nat) (srcLen : Word)
  /-- `C.DECRYPT` (R149). -/
  | cDecrypt (dstAddr : Nat) (dstLen : Word) (srcAddr : Nat) (srcLen : Word)
deriving DecidableEq, Repr

/-- What the host can read between commands (R17, R29, R57, R75). -/
inductive HostRead where
  | status
  | info
  | result
  | wordsOut
  | memory (addr len : Nat)
deriving DecidableEq, Repr

/-- One event at the boundary of the CORE and the host. Between commands the host may issue a command
(R70), write or read `M` (R50, R57), read the registers and ports (R17), or apply reset (R200); reset
may also arrive while a command runs (R201). -/
inductive HostEvent where
  | command (c : Command)
  | write (addr : Nat) (bytes : List Byte)
  | read (r : HostRead)
  | reset
  | resetDuring (c : Command)
deriving DecidableEq, Repr

end Sys2Proof
end

