-- ==== Sys2Proof/WellFormed.lean ====
section
/-! DEFINITION. Which parameters, instructions and commands exist on the hardware: the constraints of
00_scope.md R9, the port widths of 30_encoding.md R73, and `words_in` holding `count` words (R73). -/

namespace Sys2Proof

/-- R9: `XADDR >= 8`, `NMAX >= 16`. -/
def Config.wf (cfg : Config) : Bool :=
  decide (8 ≤ cfg.xaddr) && decide (16 ≤ cfg.nmax)

/-- An address port is `XADDR` bits wide (R73). -/
def Config.addrFits (cfg : Config) (a : Nat) : Bool :=
  decide (a < 2 ^ cfg.xaddr)

/-- `words_in` is a sequence of `count` words (R73). -/
def wordsMatch (count : Word) (wordsIn : List Word) : Bool :=
  decide (wordsIn.length = count.toNat)

/-- An instruction whose operands the ports can carry. -/
def Instr.wf (cfg : Config) : Instr → Bool
  | .cdcB2w srcAddr _ => cfg.addrFits srcAddr
  | .cdcW2b dstAddr _ count wordsIn => cfg.addrFits dstAddr && wordsMatch count wordsIn
  | .aConstruct keyAddr _ => cfg.addrFits keyAddr
  | .aBlocksize => true
  | .aEncrypt dstAddr _ srcAddr _ => cfg.addrFits dstAddr && cfg.addrFits srcAddr
  | .aDecrypt dstAddr _ srcAddr _ => cfg.addrFits dstAddr && cfg.addrFits srcAddr
  | .bConstruct keyAddr _ => cfg.addrFits keyAddr
  | .bBlocksize => true
  | .bEncrypt dstAddr _ srcAddr _ => cfg.addrFits dstAddr && cfg.addrFits srcAddr
  | .bDecrypt dstAddr _ srcAddr _ => cfg.addrFits dstAddr && cfg.addrFits srcAddr
  | .bWipe => true
  | .cConstruct keyAddr _ _ => cfg.addrFits keyAddr
  | .cBlocksize => true
  | .cEncrypt dstAddr _ srcAddr _ => cfg.addrFits dstAddr && cfg.addrFits srcAddr
  | .cDecrypt dstAddr _ srcAddr _ => cfg.addrFits dstAddr && cfg.addrFits srcAddr

/-- A command whose ports hold values of their widths (R73). -/
def Command.wf (cfg : Config) (c : Command) : Bool :=
  cfg.addrFits c.keyAddr && cfg.addrFits c.dstAddr && cfg.addrFits c.srcAddr
    && wordsMatch c.count c.wordsIn

end Sys2Proof
end

