-- ==== Sys2Proof/Decode.lean ====
section
/-! DEFINITION. Decoding a presented command to an instruction, total on every code, with the illegal
codes rejected by name (30_encoding.md R71, R74, R76), and the encoder from the same tables. -/

namespace Sys2Proof

/-- Why a code is not a command (R76). -/
inductive DecodeError where
  /-- `RSV != 00`: codes `0x40 .. 0xFF`. -/
  | reservedBits
  /-- `RSV = 00` but the unit has no such operation. -/
  | unassignedOperation
deriving DecidableEq, Repr

/-- `RSV`, bits 7:6 of a code (R71). -/
def codeRsv (c : BitVec 8) : BitVec 2 := c.extractLsb' 6 2

/-- `UNIT`, bits 5:4 of a code (R71): 0 Word Codec, 1 engine A, 2 engine B, 3 engine C. -/
def codeUnit (c : BitVec 8) : BitVec 2 := c.extractLsb' 4 2

/-- `OP`, bits 3:0 of a code (R71). -/
def codeOp (c : BitVec 8) : BitVec 4 := c.extractLsb' 0 4

/-- What an address port of `XADDR` wires carries (R73; notes/assumptions/7.md). -/
def sampleAddr (cfg : Config) (a : Nat) : Nat := a % 2 ^ cfg.xaddr

/-- The command a code and its sampled ports stand for (R71, R72, R74); a port the format does not
sample is not looked at (R72). -/
def decode (cfg : Config) (c : Command) : Except DecodeError Instr :=
  if codeRsv c.code ≠ 0 then .error .reservedBits
  else
    let keyAddr := sampleAddr cfg c.keyAddr
    let dstAddr := sampleAddr cfg c.dstAddr
    let srcAddr := sampleAddr cfg c.srcAddr
    match (codeUnit c.code).toNat, (codeOp c.code).toNat with
    | 0, 0 => .ok (.cdcB2w srcAddr c.srcLen)
    | 0, 1 => .ok (.cdcW2b dstAddr c.dstLen c.count c.wordsIn)
    | 1, 0 => .ok (.aConstruct keyAddr c.keyLen)
    | 1, 1 => .ok .aBlocksize
    | 1, 2 => .ok (.aEncrypt dstAddr c.dstLen srcAddr c.srcLen)
    | 1, 3 => .ok (.aDecrypt dstAddr c.dstLen srcAddr c.srcLen)
    | 2, 0 => .ok (.bConstruct keyAddr c.keyLen)
    | 2, 1 => .ok .bBlocksize
    | 2, 2 => .ok (.bEncrypt dstAddr c.dstLen srcAddr c.srcLen)
    | 2, 3 => .ok (.bDecrypt dstAddr c.dstLen srcAddr c.srcLen)
    | 2, 4 => .ok .bWipe
    | 3, 0 => .ok (.cConstruct keyAddr c.keyLen c.blockSize)
    | 3, 1 => .ok .cBlocksize
    | 3, 2 => .ok (.cEncrypt dstAddr c.dstLen srcAddr c.srcLen)
    | 3, 3 => .ok (.cDecrypt dstAddr c.dstLen srcAddr c.srcLen)
    | _, _ => .error .unassignedOperation

/-- The code of a command (R74), as `RSV UNIT OP`. -/
def Instr.code : Instr → BitVec 8
  | .cdcB2w _ _ => 0b00000000
  | .cdcW2b _ _ _ _ => 0b00000001
  | .aConstruct _ _ => 0b00010000
  | .aBlocksize => 0b00010001
  | .aEncrypt _ _ _ _ => 0b00010010
  | .aDecrypt _ _ _ _ => 0b00010011
  | .bConstruct _ _ => 0b00100000
  | .bBlocksize => 0b00100001
  | .bEncrypt _ _ _ _ => 0b00100010
  | .bDecrypt _ _ _ _ => 0b00100011
  | .bWipe => 0b00100100
  | .cConstruct _ _ _ => 0b00110000
  | .cBlocksize => 0b00110001
  | .cEncrypt _ _ _ _ => 0b00110010
  | .cDecrypt _ _ _ _ => 0b00110011

/-- The format of a command (R72, R74). -/
def Instr.format : Instr → Format
  | .cdcB2w _ _ => .r
  | .cdcW2b _ _ _ _ => .w
  | .aConstruct _ _ => .k
  | .aBlocksize => .n
  | .aEncrypt _ _ _ _ => .x
  | .aDecrypt _ _ _ _ => .x
  | .bConstruct _ _ => .k
  | .bBlocksize => .n
  | .bEncrypt _ _ _ _ => .x
  | .bDecrypt _ _ _ _ => .x
  | .bWipe => .n
  | .cConstruct _ _ _ => .kc
  | .cBlocksize => .n
  | .cEncrypt _ _ _ _ => .x
  | .cDecrypt _ _ _ _ => .x

/-- A code on the command port with every operand port at zero and no word on `words_in`. -/
def Command.ofCode (code : BitVec 8) : Command :=
  { code := code, keyAddr := 0, keyLen := 0, blockSize := 0, dstAddr := 0, dstLen := 0,
    srcAddr := 0, srcLen := 0, count := 0, wordsIn := [] }

/-- The ports of format `K` (R72). -/
def Command.withKey (c : Command) (keyAddr : Nat) (keyLen : Word) : Command :=
  { c with keyAddr := keyAddr, keyLen := keyLen }

/-- The ports of format `X` (R72). -/
def Command.withBuffers (c : Command) (dstAddr : Nat) (dstLen : Word) (srcAddr : Nat)
    (srcLen : Word) : Command :=
  { c with dstAddr := dstAddr, dstLen := dstLen, srcAddr := srcAddr, srcLen := srcLen }

/-- The command a host presents for an instruction: its code (R74) and its operands on the ports its
format samples (R72, R73); the other ports, which have no effect (R72), at zero. -/
def encode (i : Instr) : Command :=
  let c := Command.ofCode i.code
  match i with
  | .cdcB2w srcAddr srcLen => { c with srcAddr := srcAddr, srcLen := srcLen }
  | .cdcW2b dstAddr dstLen count wordsIn =>
    { c with dstAddr := dstAddr, dstLen := dstLen, count := count, wordsIn := wordsIn }
  | .aConstruct keyAddr keyLen => c.withKey keyAddr keyLen
  | .aBlocksize => c
  | .aEncrypt dstAddr dstLen srcAddr srcLen => c.withBuffers dstAddr dstLen srcAddr srcLen
  | .aDecrypt dstAddr dstLen srcAddr srcLen => c.withBuffers dstAddr dstLen srcAddr srcLen
  | .bConstruct keyAddr keyLen => c.withKey keyAddr keyLen
  | .bBlocksize => c
  | .bEncrypt dstAddr dstLen srcAddr srcLen => c.withBuffers dstAddr dstLen srcAddr srcLen
  | .bDecrypt dstAddr dstLen srcAddr srcLen => c.withBuffers dstAddr dstLen srcAddr srcLen
  | .bWipe => c
  | .cConstruct keyAddr keyLen blockSize =>
    { c.withKey keyAddr keyLen with blockSize := blockSize }
  | .cBlocksize => c
  | .cEncrypt dstAddr dstLen srcAddr srcLen => c.withBuffers dstAddr dstLen srcAddr srcLen
  | .cDecrypt dstAddr dstLen srcAddr srcLen => c.withBuffers dstAddr dstLen srcAddr srcLen

/-- The decoder on a row of the opcode table: there is one command length, 8 bits (R70), and the
operand ports, which the table gives no bits, are at zero. -/
def decodeTableWord (nbits w : Nat) : Option Instr :=
  if nbits = 8 ∧ w < 256 then (decode Config.standard (Command.ofCode (BitVec.ofNat 8 w))).toOption
  else none

end Sys2Proof
end

