-- ==== Sys2Proof/Machine/State.lean ====
section
/-! DEFINITION. The architectural state of 10_state.md R20 as plain data, the model's own fields beside
it, the reasons a step can stop, and the state after reset (R33). -/

namespace Sys2Proof.Machine

/-- The eight values `STATUS` takes (60_exceptions.md R170; "a model's status type has exactly eight
values", 93 U19). -/
inductive Status where
  | ok
  | invalidKeySize
  | illegalCommand
  | noInstance
  | keyWiped
  | bufferLength
  | blockSize
  | addressRange
deriving DecidableEq, Repr

/-- Engine A (R20, R22): `A.valid`, `A.K[0..3]`. -/
structure EngineA where
  valid : Bool
  k : Quad Word
deriving DecidableEq, Repr

/-- Engine B (R20, R23): `B.valid`, `B.wiped`, `B.KB[0..15]` (group i holds `B.KB[4i .. 4i+3]`),
`B.K[0..3]`. -/
structure EngineB where
  valid : Bool
  wiped : Bool
  kb : Quad (Quad Byte)
  k : Quad Word
deriving DecidableEq, Repr

/-- Engine C (R20, R24): `C.valid`, `C.K[0..3]`, `C.BS`. -/
structure EngineC where
  valid : Bool
  k : Quad Word
  bs : Word
deriving DecidableEq, Repr

/-- The buffer memory `M` (20_memory.md R50): the bytes written since reset, addresses strictly rising.
An address that is not listed holds no value of the model's. -/
abbrev Memory := List Host.Cell

/-- The state of the machine. The first eight fields are the spec's (R20, and the result ports of R75);
`cfg`, `pending` and `tick` are the model's own. -/
structure State where
  a : EngineA
  b : EngineB
  c : EngineC
  /-- `STATUS`: the status of the last completed command (R29). -/
  status : Status
  /-- `INFO`: its information word (R29). -/
  info : Word
  /-- `M` (R50). -/
  mem : Memory
  /-- `RESULT`: a value only on an `OK` completion of a `*.BLOCKSIZE` (R75). -/
  result : Option Word
  /-- `WORDS_OUT`: a value only on an `OK` completion of `CDC.B2W` (R75). -/
  wordsOut : Option (List Word)
  /-- The implementation's parameters (00_scope.md R9); no step changes them. -/
  cfg : Config
  /-- What the host does from here on, in order (R16, R57): not a queue of the hardware, which takes
  one command at a time (R70), but the model's way to give the host its turns. -/
  pending : List HostEvent
  /-- How many events have been handled: the argument of the free values that are fresh each time. -/
  tick : Nat
deriving DecidableEq, Repr

/-- Why a step stops. No command stops: each completes with a status (60_exceptions.md R178, R184). -/
inductive Fault where
  /-- The host read `RESULT` or `WORDS_OUT` on a completion that gave it no value: "treat a read as a
  fault" (30_encoding.md R75; 93 U16). Raised by `HostEvent.read`. Safe. -/
  | portWithoutValue
  /-- The host accessed a byte outside `0 .. 2^XADDR - 1` or an unmapped byte of `M` (20_memory.md R50,
  R59), which does not exist. Raised by `HostEvent.write` and `HostEvent.read`. Safe. -/
  | hostAccessOutsideMemory
deriving DecidableEq, Repr

/-- Why a step is refused. Every command has its meaning, so nothing raises this. -/
inductive Refusal where
  /-- The instruction has no meaning in the model yet. Raised by no arm. Safe. -/
  | notModelled (mnemonic : String)
deriving DecidableEq, Repr

/-- The state right after reset (R33): flags 0, key material 0, `C.BS` 0, `STATUS` = `OK`, `INFO` 0, no
value on the result ports, no byte of `M` written by reset. Nothing is presented on the command port. -/
def State.reset : State where
  a := { valid := false, k := ⟨0, 0, 0, 0⟩ }
  b := { valid := false, wiped := false,
         kb := ⟨⟨0, 0, 0, 0⟩, ⟨0, 0, 0, 0⟩, ⟨0, 0, 0, 0⟩, ⟨0, 0, 0, 0⟩⟩, k := ⟨0, 0, 0, 0⟩ }
  c := { valid := false, k := ⟨0, 0, 0, 0⟩, bs := 0 }
  status := .ok
  info := 0
  mem := []
  result := none
  wordsOut := none
  cfg := Config.standard
  pending := []
  tick := 0

end Sys2Proof.Machine
end

