-- ==== Sys2Proof/Machine/Constants.lean ====
section
/-! DEFINITION. The constants the source fixes (00_scope.md R7, 41_cipher_a.md R100, 42_cipher_b.md
R120, 43_cipher_c.md R141). -/

namespace Sys2Proof.Machine

/-- `DELTA` (R7): the accumulator increment, shared by the three engines. -/
def delta : Word := 0x9E3779B9

/-- `KEYLEN` (R7): key length in bytes. -/
def keyLength : Nat := 16

/-- `ROUNDS_A` (R7). -/
def roundsA : Nat := 32

/-- `ROUNDS_B` (R7). -/
def roundsB : Nat := 32

/-- `q(n)` (R141): rounds of engine C at `n` words, natural-number floor division. -/
def roundsC (n : Nat) : Nat := 6 + 52 / n

/-- `BS_A` and `BS_B` (R7): block size in bytes of engines A and B. -/
def blockSizeAB : Nat := 8

/-- `BS_C_MIN` (R7): least block size in bytes of engine C. -/
def blockSizeMinC : Nat := 8

end Sys2Proof.Machine
end

