-- ==== Sys2Proof/Machine/WordCodec.lean ====
section
/-! DEFINITION. The Word Codec as pure functions (40_codec.md R90 to R93), the word derivation of a key
(10_state.md R25) and the counted loop every round loop is (70_reset_and_hazards.md R212). -/

namespace Sys2Proof

/-- Member i of a group of four, by a 2-bit index: `key[i]` (42_cipher_b.md R120, 43_cipher_c.md R140). -/
def Quad.get {α : Type} (q : Quad α) (i : BitVec 2) : α :=
  match i.toNat with
  | 0 => q.x0
  | 1 => q.x1
  | 2 => q.x2
  | _ => q.x3

/-- The same function on each of the four. -/
def Quad.map {α β : Type} (f : α → β) (q : Quad α) : Quad β :=
  ⟨f q.x0, f q.x1, f q.x2, f q.x3⟩

/-- The four, in order. -/
def Quad.toList {α : Type} (q : Quad α) : List α := [q.x0, q.x1, q.x2, q.x3]

namespace Machine

/-- `be_decode` (R90): the byte at the lowest offset gives bits 31:24. -/
def beDecode (b : Quad Byte) : Word := b.x0 ++ b.x1 ++ b.x2 ++ b.x3

/-- `be_encode` (R91): `( w[31:24], w[23:16], w[15:8], w[7:0] )`. -/
def beEncode (w : Word) : Quad Byte :=
  ⟨w.extractLsb' 24 8, w.extractLsb' 16 8, w.extractLsb' 8 8, w.extractLsb' 0 8⟩

/-- `bytes_to_words` (R92): 4-byte groups in order. R92 defines it on lengths that are a multiple of 4
and no meaning applies it to another (notes/assumptions/8.md). -/
def bytesToWords : List Byte → List Word
  | b0 :: b1 :: b2 :: b3 :: rest => beDecode ⟨b0, b1, b2, b3⟩ :: bytesToWords rest
  | _ => []

/-- `words_to_bytes` (R93): word j goes to offsets 4j .. 4j+3. -/
def wordsToBytes : List Word → List Byte
  | [] => []
  | w :: rest => (beEncode w).toList ++ wordsToBytes rest

/-- `ki = be_decode(key[4i .. 4i+3])` for i = 0..3 (R25). -/
def keyWords (key : Quad (Quad Byte)) : Quad Word := key.map beDecode

/-- `repeat N times` (00_scope.md R12): exactly `n` iterations, whatever the data (R212). -/
def repeatTimes {σ : Type} (f : σ → σ) : Nat → σ → σ
  | 0, s => s
  | n + 1, s => repeatTimes f n (f s)

end Machine

end Sys2Proof
end

