-- ==== Sys2Proof/Machine/Ops.lean ====
section
/-! DEFINITION. The named operations over the buffer memory (20_memory.md R52, R53) and over the status
registers and result ports: how a command completes, and `raise`, which is all an exceptional condition
does (60_exceptions.md R178, R182). There is no return from it (R183). -/

namespace Sys2Proof.Machine

/-- The byte written last to an address, if any was since reset. -/
def Memory.lookup : Memory → Nat → Option Byte
  | [], _ => none
  | (x, y) :: rest, a => if a = x then some y else Memory.lookup rest a

/-- What an address that is not listed reads as: whatever the platform left there (10_state.md R33),
a free value (notes/assumptions/1.md). -/
def Memory.unlisted (a : Nat) : Byte := Config.platformByte a

/-- `M[a]`. -/
def Memory.read (m : Memory) (a : Nat) : Byte := (Memory.lookup m a).getD (Memory.unlisted a)

/-- `M[a] <- b`; keeps the addresses strictly rising. -/
def Memory.write : Memory → Nat → Byte → Memory
  | [], a, b => [(a, b)]
  | (x, y) :: rest, a, b =>
    if a < x then (a, b) :: (x, y) :: rest
    else if a = x then (a, b) :: rest
    else (x, y) :: Memory.write rest a b

/-- Every listed address is at or above `lo`, and they rise strictly. -/
def Memory.risingFrom : Nat → Memory → Bool
  | _, [] => true
  | lo, (x, _) :: rest => decide (lo ≤ x) && Memory.risingFrom (x + 1) rest

/-- The one canonical form: addresses strictly rising. An address that is not listed holds no value, so
no entry can equal it. -/
def Memory.wf (m : Memory) : Bool := Memory.risingFrom 0 m

/-- Every listed address lies in the address space `0 .. 2^XADDR - 1` (R50). -/
def Memory.within (m : Memory) (cfg : Config) : Bool := m.all (fun cell => cfg.addrFits cell.1)

/-- `MemRead(a, L)` (R52): `bs[i] = M[a + i]`, index 0 first; no side effect. -/
def memRead (m : Memory) (a : Nat) : Nat → List Byte
  | 0 => []
  | len + 1 => m.read a :: memRead m (a + 1) len

/-- `MemWrite(a, L, bs)` (R53): `M[a + i] <- bs[i]` for each i, and no other byte. -/
def memWrite (m : Memory) (a : Nat) : List Byte → Memory
  | [] => m
  | b :: rest => memWrite (m.write a b) (a + 1) rest

/-- `MemRead(a, 4)` as one group. -/
def memReadQuad (m : Memory) (a : Nat) : Quad Byte :=
  ⟨m.read a, m.read (a + 1), m.read (a + 2), m.read (a + 3)⟩

/-- `MemRead(a, 16)` as the four groups `key[4i .. 4i+3]` (R25). -/
def memReadKey (m : Memory) (a : Nat) : Quad (Quad Byte) :=
  ⟨memReadQuad m a, memReadQuad m (a + 4), memReadQuad m (a + 8), memReadQuad m (a + 12)⟩

/-- `raise S(info)` (R178): `STATUS <- S`, `INFO <- info`, and nothing else; the result ports have no
value on such a completion (R75). -/
def raise (status : Status) (info : Word) (s : State) : State :=
  { s with status := status, info := info, result := none, wordsOut := none }

/-- `complete()` (00_scope.md R12): `STATUS <- OK`, `INFO` 0 (R29), no value on the result ports. -/
def complete (s : State) : State :=
  { s with status := .ok, info := 0, result := none, wordsOut := none }

/-- `complete(RESULT <- v)`. -/
def completeResult (v : Word) (s : State) : State :=
  { s with status := .ok, info := 0, result := some v, wordsOut := none }

/-- `complete(WORDS_OUT <- ws)`. -/
def completeWords (ws : List Word) (s : State) : State :=
  { s with status := .ok, info := 0, result := none, wordsOut := some ws }

/-- One check of a command rule: whether it fails, and what it then raises. -/
structure Check where
  fails : Bool
  status : Status
  info : Word
deriving DecidableEq, Repr

/-- The first check that fails is reported and later ones are not evaluated (R179). -/
def firstFailure : List Check → Option Check
  | [] => none
  | c :: rest => if c.fails then some c else firstFailure rest

/-- A command: its checks in order, all before its first memory access (R178), then its effect. -/
def guarded (checks : List Check) (effect : State → State) (s : State) :
    Host.Outcome State Fault Refusal :=
  match firstFailure checks with
  | some c => .next (raise c.status c.info s)
  | none => .next (effect s)

/-- `MemWrite` of a command's result, then `complete()`. -/
def storeAndComplete (a : Nat) (bytes : List Byte) (s : State) : State :=
  complete { s with mem := memWrite s.mem a bytes }

/-- The reset event (70_reset_and_hazards.md R200): every register at its value of R33; `M` is not
written, and the parameters and the host's further events are not the CORE's to change. -/
def resetCore (s : State) : State :=
  { State.reset with mem := s.mem, cfg := s.cfg, pending := s.pending, tick := s.tick }

end Sys2Proof.Machine
end

