-- ==== Sys2Proof/Machine/Operands.lean ====
section
/-! DEFINITION. The checks on operands: lengths (60_exceptions.md R171, R175, R176), address ranges
(20_memory.md R59, 40_codec.md R96, R177), and the sampling of `words_in` (30_encoding.md R73). -/

namespace Sys2Proof.Machine

/-- The address lies in the region. -/
def inRegion (r : Region) (x : Nat) : Bool := decide (r.base ≤ x) && decide (x < r.base + r.size)

/-- `Mapped(x)` (00_scope.md R9). -/
def mapped (cfg : Config) (x : Nat) : Bool := !cfg.unmapped.any (fun r => inRegion r x)

/-- The buffer `(a, len)` and the region share an address. -/
def overlaps (r : Region) (a len : Nat) : Bool :=
  decide (0 < len) && decide (0 < r.size) && decide (a < r.base + r.size) && decide (r.base < a + len)

/-- `InRange(a, L)` (R59, R96): `a + L <= 2^XADDR`, computed without wrap, and every byte mapped. -/
def inRange (cfg : Config) (a len : Nat) : Bool :=
  decide (a + len ≤ 2 ^ cfg.xaddr) && !cfg.unmapped.any (fun r => overlaps r a len)

/-- `ADDRESS_RANGE` on a buffer, with its `INFO`: 0 key, 1 source, 2 destination (R177). -/
def rangeCheck (which : Word) (cfg : Config) (a len : Nat) : Check :=
  { fails := !inRange cfg a len, status := .addressRange, info := which }

/-- `INVALID_KEY_SIZE` with the observed length (R171). -/
def keyLenCheck (keyLen : Word) : Check :=
  { fails := decide (keyLen.toNat ≠ keyLength), status := .invalidKeySize, info := keyLen }

/-- `BLOCK_SIZE`: below 8, not a multiple of 4, or more words than `NMAX` (R176). -/
def blockSizeCheck (cfg : Config) (blockSize : Word) : Check :=
  { fails := decide (blockSize.toNat < blockSizeMinC) || decide (blockSize.toNat % 4 ≠ 0)
      || decide (cfg.nmax < blockSize.toNat / 4),
    status := .blockSize, info := blockSize }

/-- `BUFFER_LENGTH` of an engine transform: the length is exactly the block size (R175). -/
def exactLenCheck (blockSize : Nat) (len : Word) : Check :=
  { fails := decide (len.toNat ≠ blockSize), status := .bufferLength, info := len }

/-- `BUFFER_LENGTH` of `CDC.B2W` (40_codec.md R94). -/
def wholeWordsCheck (len : Word) : Check :=
  { fails := decide (len.toNat % 4 ≠ 0), status := .bufferLength, info := len }

/-- `BUFFER_LENGTH` of `CDC.W2B` (40_codec.md R95); `4 * count` is a natural number, no wrap. -/
def coversWordsCheck (len count : Word) : Check :=
  { fails := decide (len.toNat % 4 ≠ 0) || decide (len.toNat < 4 * count.toNat),
    status := .bufferLength, info := len }

/-- The checks of format `X` after the instance's own, in order: source length, destination length,
source range, destination range (R179). -/
def transformChecks (cfg : Config) (blockSize : Nat) (dstAddr : Nat) (dstLen : Word) (srcAddr : Nat)
    (srcLen : Word) : List Check :=
  [exactLenCheck blockSize srcLen, exactLenCheck blockSize dstLen,
   rangeCheck 1 cfg srcAddr blockSize, rangeCheck 2 cfg dstAddr blockSize]

/-- The words at positions `j, j+1, ..` of `words_in`, `n` of them: those presented, and beyond them
free values (notes/assumptions/6.md). A command that exists presents exactly `count` words (R73). -/
def sampleWordsFrom (tick : Nat) : Nat → Nat → List Word → List Word
  | _, 0, _ => []
  | j, n + 1, [] => Config.undrivenWord tick j :: sampleWordsFrom tick (j + 1) n []
  | j, n + 1, w :: rest => w :: sampleWordsFrom tick (j + 1) n rest

/-- `words_in[0 .. count-1]` (R73). -/
def sampleWords (tick : Nat) (count : Word) (wordsIn : List Word) : List Word :=
  sampleWordsFrom tick 0 count.toNat wordsIn

end Sys2Proof.Machine
end

