-- ==== Sys2Proof/Machine/Flags.lean ====
section
/-! DEFINITION. The flags (10_state.md R31): who sets, clears and reads each; the codes of `STATUS`
(60_exceptions.md R170). There are no arithmetic condition codes (R31). -/

namespace Sys2Proof.Machine

/-- The 8-bit status codes (R170). -/
def Status.code : Status → BitVec 8
  | .ok => 0x00
  | .invalidKeySize => 0x01
  | .illegalCommand => 0x02
  | .noInstance => 0x03
  | .keyWiped => 0x04
  | .bufferLength => 0x05
  | .blockSize => 0x06
  | .addressRange => 0x07

/-- `E.valid = 0` gives `NO_INSTANCE`, `INFO` 0 (R31; 60_exceptions.md R173). -/
def instanceCheck (valid : Bool) : Check :=
  { fails := !valid, status := .noInstance, info := 0 }

/-- `B.wiped = 1` gives `KEY_WIPED`, `INFO` 0 (R31; 60_exceptions.md R174). -/
def wipedCheck (wiped : Bool) : Check :=
  { fails := wiped, status := .keyWiped, info := 0 }

/-- A successful `A.CONSTRUCT` (41_cipher_a.md R104): the key words, `A.valid <- 1`. -/
def EngineA.construct (key : Quad (Quad Byte)) : EngineA :=
  { valid := true, k := keyWords key }

/-- A successful `B.CONSTRUCT` (42_cipher_b.md R122): key bytes and words, `B.valid <- 1`,
`B.wiped <- 0`. -/
def EngineB.construct (key : Quad (Quad Byte)) : EngineB :=
  { valid := true, wiped := false, kb := key, k := keyWords key }

/-- The key bytes all zero. -/
def zeroKey : Quad (Quad Byte) := ⟨⟨0, 0, 0, 0⟩, ⟨0, 0, 0, 0⟩, ⟨0, 0, 0, 0⟩, ⟨0, 0, 0, 0⟩⟩

/-- The effect of `B.WIPE` (42_cipher_b.md R129): zeros in `B.KB` and `B.K`, `B.wiped <- 1`; `B.valid`
stays. -/
def EngineB.wipe (b : EngineB) : EngineB :=
  { b with wiped := true, kb := zeroKey, k := ⟨0, 0, 0, 0⟩ }

/-- A successful `C.CONSTRUCT` (43_cipher_c.md R146): the key words, `C.BS`, `C.valid <- 1`. -/
def EngineC.construct (key : Quad (Quad Byte)) (blockSize : Word) : EngineC :=
  { valid := true, k := keyWords key, bs := blockSize }

end Sys2Proof.Machine
end

