-- ==== Sys2Proof/Machine/CipherA.lean ====
section
/-! DEFINITION. Engine A: datapath (41_cipher_a.md R100 to R103) and commands (R104 to R107). -/

namespace Sys2Proof.Machine

/-- The transient round state of engines A and B (10_state.md R26); it exists within one command only
(R28). -/
structure RoundState where
  v0 : Word
  v1 : Word
  sum : Word
deriving DecidableEq, Repr

/-- The round state at the start: the block's two words, `v0` the word at the lower offset (R100), and
the initial `sum`. -/
def startRounds (sum : Word) (block : List Byte) : RoundState :=
  let ws := bytesToWords block
  { v0 := ws.getD 0 0, v1 := ws.getD 1 0, sum := sum }

/-- The result block, `v0` first (R100). -/
def RoundState.block (r : RoundState) : List Byte := wordsToBytes [r.v0, r.v1]

/-- `FA(x, sum, ka, kb)` (R101). -/
def fA (x sum ka kb : Word) : Word := ((x <<< 4) + ka) ^^^ (x + sum) ^^^ ((x >>> 5) + kb)

/-- One round of `a_encrypt` (R102): `sum`, then `v0` from the old `v1`, then `v1` from the new `v0`. -/
def aEncryptRound (k : Quad Word) (r : RoundState) : RoundState :=
  let sum := r.sum + delta
  let v0 := r.v0 + fA r.v1 sum k.x0 k.x1
  let v1 := r.v1 + fA v0 sum k.x2 k.x3
  { v0 := v0, v1 := v1, sum := sum }

/-- One round of `a_decrypt` (R103): `v1` undone first, then `v0` with the restored `v1`, then `sum`. -/
def aDecryptRound (k : Quad Word) (r : RoundState) : RoundState :=
  let v1 := r.v1 - fA r.v0 r.sum k.x2 k.x3
  let v0 := r.v0 - fA v1 r.sum k.x0 k.x1
  { v0 := v0, v1 := v1, sum := r.sum - delta }

/-- `a_encrypt` (R102). -/
def aEncryptBlock (k : Quad Word) (block : List Byte) : List Byte :=
  (repeatTimes (aEncryptRound k) roundsA (startRounds 0 block)).block

/-- `a_decrypt` (R103). -/
def aDecryptBlock (k : Quad Word) (block : List Byte) : List Byte :=
  (repeatTimes (aDecryptRound k) roundsA (startRounds (delta <<< 5) block)).block

/-- `A.CONSTRUCT` (R104). -/
def execAConstruct (keyAddr : Nat) (keyLen : Word) (s : State) : Host.Outcome State Fault Refusal :=
  guarded [keyLenCheck keyLen, rangeCheck 0 s.cfg keyAddr keyLength]
    (fun s => complete { s with a := EngineA.construct (memReadKey s.mem keyAddr) }) s

/-- `A.BLOCKSIZE` (R105). -/
def execABlocksize (s : State) : Host.Outcome State Fault Refusal :=
  guarded [instanceCheck s.a.valid] (completeResult (BitVec.ofNat 32 blockSizeAB)) s

/-- `A.ENCRYPT` (R106): the whole source is read before the destination is written (R58). -/
def execAEncrypt (dstAddr : Nat) (dstLen : Word) (srcAddr : Nat) (srcLen : Word) (s : State) :
    Host.Outcome State Fault Refusal :=
  guarded (instanceCheck s.a.valid
      :: transformChecks s.cfg blockSizeAB dstAddr dstLen srcAddr srcLen)
    (fun s => storeAndComplete dstAddr
      (aEncryptBlock s.a.k (memRead s.mem srcAddr blockSizeAB)) s) s

/-- `A.DECRYPT` (R107). -/
def execADecrypt (dstAddr : Nat) (dstLen : Word) (srcAddr : Nat) (srcLen : Word) (s : State) :
    Host.Outcome State Fault Refusal :=
  guarded (instanceCheck s.a.valid
      :: transformChecks s.cfg blockSizeAB dstAddr dstLen srcAddr srcLen)
    (fun s => storeAndComplete dstAddr
      (aDecryptBlock s.a.k (memRead s.mem srcAddr blockSizeAB)) s) s

end Sys2Proof.Machine
end

