-- ==== Sys2Proof/Machine/CipherB.lean ====
section
/-! DEFINITION. Engine B: datapath (42_cipher_b.md R120 to R125) and commands (R122, R126 to R129). Its
block and round state are engine A's (R120: "as in 41_cipher_a.md rule R100"). -/

namespace Sys2Proof.Machine

/-- `idx_lo(sum) = sum & 3` (R121). -/
def idxLo (sum : Word) : BitVec 2 := sum.setWidth 2

/-- `idx_hi(sum) = (sum >> 11) & 3` (R121). -/
def idxHi (sum : Word) : BitVec 2 := (sum >>> 11).setWidth 2

/-- `FB(x)` (R123). -/
def fB (x : Word) : Word := ((x <<< 4) ^^^ (x >>> 5)) + x

/-- One round of `b_encrypt` (R124): `v0` with the `sum` before the increment, the increment, then `v1`
with the `sum` after it and the `v0` just written. -/
def bEncryptRound (k : Quad Word) (r : RoundState) : RoundState :=
  let v0 := r.v0 + (fB r.v1 ^^^ (r.sum + k.get (idxLo r.sum)))
  let sum := r.sum + delta
  let v1 := r.v1 + (fB v0 ^^^ (sum + k.get (idxHi sum)))
  { v0 := v0, v1 := v1, sum := sum }

/-- One round of `b_decrypt` (R125): `v1` undone, then the decrement, then `v0`. -/
def bDecryptRound (k : Quad Word) (r : RoundState) : RoundState :=
  let v1 := r.v1 - (fB r.v0 ^^^ (r.sum + k.get (idxHi r.sum)))
  let sum := r.sum - delta
  let v0 := r.v0 - (fB v1 ^^^ (sum + k.get (idxLo sum)))
  { v0 := v0, v1 := v1, sum := sum }

/-- `b_encrypt` (R124). -/
def bEncryptBlock (k : Quad Word) (block : List Byte) : List Byte :=
  (repeatTimes (bEncryptRound k) roundsB (startRounds 0 block)).block

/-- `b_decrypt` (R125). -/
def bDecryptBlock (k : Quad Word) (block : List Byte) : List Byte :=
  (repeatTimes (bDecryptRound k) roundsB (startRounds (delta <<< 5) block)).block

/-- `B.CONSTRUCT` (R122). -/
def execBConstruct (keyAddr : Nat) (keyLen : Word) (s : State) : Host.Outcome State Fault Refusal :=
  guarded [keyLenCheck keyLen, rangeCheck 0 s.cfg keyAddr keyLength]
    (fun s => complete { s with b := EngineB.construct (memReadKey s.mem keyAddr) }) s

/-- `B.BLOCKSIZE` (R126): 8 also on a wiped instance. -/
def execBBlocksize (s : State) : Host.Outcome State Fault Refusal :=
  guarded [instanceCheck s.b.valid] (completeResult (BitVec.ofNat 32 blockSizeAB)) s

/-- `B.ENCRYPT` (R127): a wiped instance is refused before the lengths are looked at. -/
def execBEncrypt (dstAddr : Nat) (dstLen : Word) (srcAddr : Nat) (srcLen : Word) (s : State) :
    Host.Outcome State Fault Refusal :=
  guarded (instanceCheck s.b.valid :: wipedCheck s.b.wiped
      :: transformChecks s.cfg blockSizeAB dstAddr dstLen srcAddr srcLen)
    (fun s => storeAndComplete dstAddr
      (bEncryptBlock s.b.k (memRead s.mem srcAddr blockSizeAB)) s) s

/-- `B.DECRYPT` (R128). -/
def execBDecrypt (dstAddr : Nat) (dstLen : Word) (srcAddr : Nat) (srcLen : Word) (s : State) :
    Host.Outcome State Fault Refusal :=
  guarded (instanceCheck s.b.valid :: wipedCheck s.b.wiped
      :: transformChecks s.cfg blockSizeAB dstAddr dstLen srcAddr srcLen)
    (fun s => storeAndComplete dstAddr
      (bDecryptBlock s.b.k (memRead s.mem srcAddr blockSizeAB)) s) s

/-- `B.WIPE` (R129): clears the engine's copy of the key, never `M` (20_memory.md R64). -/
def execBWipe (s : State) : Host.Outcome State Fault Refusal :=
  guarded [instanceCheck s.b.valid] (fun s => complete { s with b := s.b.wipe }) s

end Sys2Proof.Machine
end

