-- ==== Sys2Proof/Machine/CipherC.lean ====
section
/-! DEFINITION. Engine C: datapath (43_cipher_c.md R140 to R145) and commands (R146 to R149). -/

namespace Sys2Proof.Machine

/-- The mixing function `mx(v0, v1, sum, p, e)` (R142). The key index `(p & 3) ^ e` is a 2-bit value. -/
def mx (k : Quad Word) (v0 v1 sum : Word) (p : Nat) (e : BitVec 2) : Word :=
  (((v1 >>> 5) ^^^ (v0 <<< 2)) + ((v0 >>> 3) ^^^ (v1 <<< 4)))
    ^^^ ((sum ^^^ v0) + (k.get (BitVec.ofNat 2 p ^^^ e) ^^^ v1))

/-- `e = (sum >> 2) & 3` (R143), once a round. -/
def roundIndex (sum : Word) : BitVec 2 := (sum >>> 2).setWidth 2

/-- `W[i]` for a word position `i` below `n`. -/
def wordAt (w : List Word) (i : Nat) : Word := w.getD i 0

/-- The value `mx` takes for the word at position `p` of `n`, read from the words as they are now: `v0`
the right neighbour, `v1` the left one, both circularly (R144, R145). -/
def mixAt (k : Quad Word) (n : Nat) (sum : Word) (e : BitVec 2) (w : List Word) (p : Nat) : Word :=
  mx k (wordAt w ((p + 1) % n)) (wordAt w ((p + n - 1) % n)) sum p e

/-- `W[p] <- W[p] + mx(..)`, in place (R144). -/
def cEncryptStep (k : Quad Word) (n : Nat) (sum : Word) (e : BitVec 2) (w : List Word) (p : Nat) :
    List Word :=
  w.set p (wordAt w p + mixAt k n sum e w p)

/-- `W[p] <- W[p] - mx(..)`, in place (R145). -/
def cDecryptStep (k : Quad Word) (n : Nat) (sum : Word) (e : BitVec 2) (w : List Word) (p : Nat) :
    List Word :=
  w.set p (wordAt w p - mixAt k n sum e w p)

/-- The transient round state of engine C (10_state.md R27); it exists within one command only (R28). -/
structure RingState where
  w : List Word
  sum : Word
deriving DecidableEq, Repr

/-- One round of `c_encrypt` (R144): `sum`, `e`, then positions `0 .. n-1` in order. -/
def cEncryptRound (k : Quad Word) (n : Nat) (r : RingState) : RingState :=
  let sum := r.sum + delta
  { w := (List.range n).foldl (cEncryptStep k n sum (roundIndex sum)) r.w, sum := sum }

/-- One round of `c_decrypt` (R145): `e` from the `sum` before the decrement, positions `n-1` down to 0,
then `sum`. -/
def cDecryptRound (k : Quad Word) (n : Nat) (r : RingState) : RingState :=
  { w := (List.range n).reverse.foldl (cDecryptStep k n r.sum (roundIndex r.sum)) r.w,
    sum := r.sum - delta }

/-- `DELTA * m` modulo 2^32 (00_scope.md R11). -/
def deltaTimes (m : Nat) : Word := delta * BitVec.ofNat 32 m

/-- `c_encrypt` (R144); `q` rounds, counted (70_reset_and_hazards.md R212). -/
def cEncryptBlock (k : Quad Word) (n : Nat) (block : List Byte) : List Byte :=
  wordsToBytes
    (repeatTimes (cEncryptRound k n) (roundsC n) { w := bytesToWords block, sum := 0 }).w

/-- `c_decrypt` (R145); `q` rounds, counted, not stopped by `sum` (70_reset_and_hazards.md R212). -/
def cDecryptBlock (k : Quad Word) (n : Nat) (block : List Byte) : List Byte :=
  wordsToBytes
    (repeatTimes (cDecryptRound k n) (roundsC n)
      { w := bytesToWords block, sum := deltaTimes (roundsC n) }).w

/-- `C.CONSTRUCT` (R146): key length, block size, then the key's range. -/
def execCConstruct (keyAddr : Nat) (keyLen blockSize : Word) (s : State) :
    Host.Outcome State Fault Refusal :=
  guarded [keyLenCheck keyLen, blockSizeCheck s.cfg blockSize, rangeCheck 0 s.cfg keyAddr keyLength]
    (fun s => complete { s with c := EngineC.construct (memReadKey s.mem keyAddr) blockSize }) s

/-- `C.BLOCKSIZE` (R147). -/
def execCBlocksize (s : State) : Host.Outcome State Fault Refusal :=
  guarded [instanceCheck s.c.valid] (completeResult s.c.bs) s

/-- `C.ENCRYPT` (R148): one block of `C.BS` bytes, `n = C.BS / 4` (10_state.md R24). -/
def execCEncrypt (dstAddr : Nat) (dstLen : Word) (srcAddr : Nat) (srcLen : Word) (s : State) :
    Host.Outcome State Fault Refusal :=
  guarded (instanceCheck s.c.valid
      :: transformChecks s.cfg s.c.bs.toNat dstAddr dstLen srcAddr srcLen)
    (fun s => storeAndComplete dstAddr
      (cEncryptBlock s.c.k (s.c.bs.toNat / 4) (memRead s.mem srcAddr s.c.bs.toNat)) s) s

/-- `C.DECRYPT` (R149). -/
def execCDecrypt (dstAddr : Nat) (dstLen : Word) (srcAddr : Nat) (srcLen : Word) (s : State) :
    Host.Outcome State Fault Refusal :=
  guarded (instanceCheck s.c.valid
      :: transformChecks s.cfg s.c.bs.toNat dstAddr dstLen srcAddr srcLen)
    (fun s => storeAndComplete dstAddr
      (cDecryptBlock s.c.k (s.c.bs.toNat / 4) (memRead s.mem srcAddr s.c.bs.toNat)) s) s

end Sys2Proof.Machine
end

