-- ==== Sys2Proof/Machine/Codec.lean ====
section
/-! DEFINITION. The commands of the Word Codec: `CDC.B2W`, `CDC.W2B` (40_codec.md R94, R95). -/

namespace Sys2Proof.Machine

/-- `CDC.B2W` (R94): every 4-byte group of the source buffer, as words on `WORDS_OUT`. -/
def execCdcB2w (srcAddr : Nat) (srcLen : Word) (s : State) : Host.Outcome State Fault Refusal :=
  guarded [wholeWordsCheck srcLen, rangeCheck 1 s.cfg srcAddr srcLen.toNat]
    (fun s => completeWords (bytesToWords (memRead s.mem srcAddr srcLen.toNat)) s) s

/-- `CDC.W2B` (R95): `count` words to the first `4 * count` bytes of the destination buffer; the rest
of the claimed buffer is range-checked and not written. -/
def execCdcW2b (dstAddr : Nat) (dstLen count : Word) (wordsIn : List Word) (s : State) :
    Host.Outcome State Fault Refusal :=
  guarded [coversWordsCheck dstLen count, rangeCheck 2 s.cfg dstAddr dstLen.toNat]
    (fun s => storeAndComplete dstAddr (wordsToBytes (sampleWords s.tick count wordsIn)) s) s

end Sys2Proof.Machine
end

