-- ==== Sys2Proof/Machine/Dispatch.lean ====
section
/-! DEFINITION. One arm per command: its meaning. -/

namespace Sys2Proof.Machine

def exec (i : Instr) (s : State) : Host.Outcome State Fault Refusal :=
  match i with
  -- Word Codec
  | .cdcB2w srcAddr srcLen => Sys2Proof.Machine.execCdcB2w srcAddr srcLen s
  | .cdcW2b dstAddr dstLen count wordsIn => Sys2Proof.Machine.execCdcW2b dstAddr dstLen count wordsIn s
  -- engine A
  | .aConstruct keyAddr keyLen => Sys2Proof.Machine.execAConstruct keyAddr keyLen s
  | .aBlocksize => Sys2Proof.Machine.execABlocksize s
  | .aEncrypt dstAddr dstLen srcAddr srcLen => Sys2Proof.Machine.execAEncrypt dstAddr dstLen srcAddr srcLen s
  | .aDecrypt dstAddr dstLen srcAddr srcLen => Sys2Proof.Machine.execADecrypt dstAddr dstLen srcAddr srcLen s
  -- engine B
  | .bConstruct keyAddr keyLen => Sys2Proof.Machine.execBConstruct keyAddr keyLen s
  | .bBlocksize => Sys2Proof.Machine.execBBlocksize s
  | .bEncrypt dstAddr dstLen srcAddr srcLen => Sys2Proof.Machine.execBEncrypt dstAddr dstLen srcAddr srcLen s
  | .bDecrypt dstAddr dstLen srcAddr srcLen => Sys2Proof.Machine.execBDecrypt dstAddr dstLen srcAddr srcLen s
  | .bWipe => Sys2Proof.Machine.execBWipe s
  -- engine C
  | .cConstruct keyAddr keyLen blockSize => Sys2Proof.Machine.execCConstruct keyAddr keyLen blockSize s
  | .cBlocksize => Sys2Proof.Machine.execCBlocksize s
  | .cEncrypt dstAddr dstLen srcAddr srcLen => Sys2Proof.Machine.execCEncrypt dstAddr dstLen srcAddr srcLen s
  | .cDecrypt dstAddr dstLen srcAddr srcLen => Sys2Proof.Machine.execCDecrypt dstAddr dstLen srcAddr srcLen s

end Sys2Proof.Machine
end

