-- ==== Sys2Proof/Machine/HostPort.lean ====
section
/-! DEFINITION. The boundary of the CORE and the host (00_scope.md R16): taking a presented command
(30_encoding.md R70, R76), the host's accesses to `M` and to the ports between commands (20_memory.md
R57), and reset (70_reset_and_hazards.md R200, R201). -/

namespace Sys2Proof.Machine

/-- The CORE takes a command: it runs the command the code stands for, or completes with
`ILLEGAL_COMMAND` and the code zero-extended (R76; 60_exceptions.md R172). -/
def runCommand (c : Command) (s : State) : Host.Outcome State Fault Refusal :=
  match decode s.cfg c with
  | .error _ => .next (raise .illegalCommand (c.code.setWidth 32) s)
  | .ok i => exec i s

/-- Where a command stores when it completes with `OK`: address and number of bytes (20_memory.md R51). -/
def destination (s : State) : Instr → Nat × Nat
  | .cdcB2w _ _ => (0, 0)
  | .cdcW2b dstAddr _ count _ => (dstAddr, 4 * count.toNat)
  | .aConstruct _ _ => (0, 0)
  | .aBlocksize => (0, 0)
  | .aEncrypt dstAddr _ _ _ => (dstAddr, blockSizeAB)
  | .aDecrypt dstAddr _ _ _ => (dstAddr, blockSizeAB)
  | .bConstruct _ _ => (0, 0)
  | .bBlocksize => (0, 0)
  | .bEncrypt dstAddr _ _ _ => (dstAddr, blockSizeAB)
  | .bDecrypt dstAddr _ _ _ => (dstAddr, blockSizeAB)
  | .bWipe => (0, 0)
  | .cConstruct _ _ _ => (0, 0)
  | .cBlocksize => (0, 0)
  | .cEncrypt dstAddr _ _ _ => (dstAddr, s.c.bs.toNat)
  | .cDecrypt dstAddr _ _ _ => (dstAddr, s.c.bs.toNat)

/-- One byte of a destination buffer when reset arrives while the command runs: as in `new` or as
before, "unspecified which" (R201): a free choice (notes/assumptions/5.md). -/
def mixByte (tick : Nat) (new : Memory) (a : Nat) (old : Memory) : Memory :=
  match new.lookup a with
  | some b => if Config.abortedByteIsNew tick a then old.write a b else old
  | none => old

/-- The `len` bytes from `a` on, "byte by byte" (R201). -/
def mixBytes (tick : Nat) (new : Memory) (a : Nat) : Nat → Memory → Memory
  | 0, old => old
  | len + 1, old => mixBytes tick new (a + 1) len (mixByte tick new a old)

/-- The memory a command leaves when reset arrives while it runs (R201). -/
def abortedMemory (i : Instr) (s : State) : Memory :=
  match exec i s with
  | .next t => mixBytes s.tick t.mem (destination s i).1 (destination s i).2 s.mem
  | .fault _ => s.mem
  | .refused _ => s.mem

/-- Reset while a command runs (R201): no completion, the reset state, each destination byte old or
new. -/
def resetDuringCommand (c : Command) (s : State) : State :=
  match decode s.cfg c with
  | .error _ => resetCore s
  | .ok i => resetCore { s with mem := abortedMemory i s }

/-- The host writes bytes of `M` between commands (R57); bytes outside `M` do not exist (R50, R59). -/
def hostWrite (a : Nat) (bytes : List Byte) (s : State) : Host.Outcome State Fault Refusal :=
  if inRange s.cfg a bytes.length then .next { s with mem := memWrite s.mem a bytes }
  else .fault .hostAccessOutsideMemory

/-- The host reads (R17, R52: no side effect). A result port the last completion does not name has no
value: "treat a read as a fault" (R75). -/
def hostRead (r : HostRead) (s : State) : Host.Outcome State Fault Refusal :=
  match r with
  | .status => .next s
  | .info => .next s
  | .result => if s.result.isSome then .next s else .fault .portWithoutValue
  | .wordsOut => if s.wordsOut.isSome then .next s else .fault .portWithoutValue
  | .memory a len => if inRange s.cfg a len then .next s else .fault .hostAccessOutsideMemory

/-- One event. -/
def handleEvent (e : HostEvent) (s : State) : Host.Outcome State Fault Refusal :=
  match e with
  | .command c => runCommand c s
  | .write a bytes => hostWrite a bytes s
  | .read r => hostRead r s
  | .reset => .next (resetCore s)
  | .resetDuring c => .next (resetDuringCommand c s)

end Sys2Proof.Machine
end

