-- ==== Sys2Proof/Machine/Step.lean ====
section
/-! DEFINITION. One step: the next event of the boundary, as one atomic transition (00_scope.md R13,
20_memory.md R57). With nothing presented the CORE is idle and keeps all its state (60_exceptions.md
R195). -/

namespace Sys2Proof.Machine

/-- One step. An event is taken off `pending` and handled on the state that remains. -/
def step (s : State) : Host.Outcome State Fault Refusal :=
  match s.pending with
  | [] => .next s
  | e :: rest => handleEvent e { s with pending := rest, tick := s.tick + 1 }

/-- `s` with the command of code `w` presented next, every operand port at zero. There is no fetch
(10_state.md R30): commands arrive on the command port (20_memory.md R63). -/
def State.withFetchWord (s : State) (_nbits w : Nat) : State :=
  { s with pending := .command (Command.ofCode (BitVec.ofNat 8 w)) :: s.pending }

end Sys2Proof.Machine
end

