-- ==== Sys2Proof/Machine/Assembler.lean ====
section
/-! DEFINITION. The listing syntax of 30_encoding.md R78 and the pseudo-commands of R79, at the level of
parsed lines: a mnemonic and its operands, numbers already read (Machine/Listing.lean reads them). It
changes nothing a machine does; it says which command a line of a listing stands for. -/

namespace Sys2Proof.Machine

/-- The operand ports a line names one by one (30_encoding.md R73). -/
inductive Port where
  | keyAddr
  | keyLen
  | blockSize
  | dstAddr
  | dstLen
  | srcAddr
  | srcLen
  | count
deriving DecidableEq, Repr

/-- The names a buffer is written under (R78), and `buf` of the pseudo-commands (R79). -/
inductive BufferName where
  | key
  | dst
  | src
  | buf
deriving DecidableEq, Repr

/-- One operand of a line (R78): `<port>=<value>`, `<buffer>=<addr>:<len>`, `words=[w0, w1, ...]`, or
`words_in=[w0, w1, ...]`, the port of that name, which sets no `count` (DESIGN CHOICE,
notes/assumptions/15.md: R78 gives the bracket form under the name `words` only). -/
inductive AsmOperand where
  | number (port : Port) (value : Nat)
  | buffer (name : BufferName) (addr len : Nat)
  | words (ws : List Nat)
  | wordsIn (ws : List Nat)
deriving DecidableEq, Repr

/-- One line of a listing (R78), its comment left out. -/
structure AsmLine where
  mnemonic : String
  operands : List AsmOperand
deriving DecidableEq, Repr

/-- The mnemonics of R74. -/
def mnemonicOf : Instr → String
  | .cdcB2w _ _ => "CDC.B2W"
  | .cdcW2b _ _ _ _ => "CDC.W2B"
  | .aConstruct _ _ => "A.CONSTRUCT"
  | .aBlocksize => "A.BLOCKSIZE"
  | .aEncrypt _ _ _ _ => "A.ENCRYPT"
  | .aDecrypt _ _ _ _ => "A.DECRYPT"
  | .bConstruct _ _ => "B.CONSTRUCT"
  | .bBlocksize => "B.BLOCKSIZE"
  | .bEncrypt _ _ _ _ => "B.ENCRYPT"
  | .bDecrypt _ _ _ _ => "B.DECRYPT"
  | .bWipe => "B.WIPE"
  | .cConstruct _ _ _ => "C.CONSTRUCT"
  | .cBlocksize => "C.BLOCKSIZE"
  | .cEncrypt _ _ _ _ => "C.ENCRYPT"
  | .cDecrypt _ _ _ _ => "C.DECRYPT"

/-- What stands on one operand port (30_encoding.md R73): a number, or the sequence `words_in`. -/
inductive PortValue where
  | number (port : Port) (value : Nat)
  | words (ws : List Nat)
deriving DecidableEq, Repr

/-- What an operand puts on the ports, in the order of R72: a buffer "stands for the address port and the
length port", and `words` "sets `count` to the number of words listed" (R78). `buf` is a name of the
pseudo-commands (R79) and stands for no port: a line on which it is left over stands for no command
(DESIGN CHOICE, notes/assumptions/15.md). -/
def AsmOperand.ports : AsmOperand → Option (List PortValue)
  | .number port value => some [.number port value]
  | .buffer .key addr len => some [.number .keyAddr addr, .number .keyLen len]
  | .buffer .dst addr len => some [.number .dstAddr addr, .number .dstLen len]
  | .buffer .src addr len => some [.number .srcAddr addr, .number .srcLen len]
  | .buffer .buf _ _ => none
  | .words ws => some [.number .count ws.length, .words ws]
  | .wordsIn ws => some [.words ws]

/-- What the operands of a line put on the ports, in order. -/
def linePorts : List AsmOperand → Option (List PortValue)
  | [] => some []
  | op :: rest => op.ports.bind fun ps => (linePorts rest).map fun qs => ps ++ qs

/-- The command a pseudo-command's name stands for (R79). -/
def pseudoBase (mnemonic : String) : Option String :=
  if mnemonic = "A.ENCRYPT.IP" then some "A.ENCRYPT"
  else if mnemonic = "A.DECRYPT.IP" then some "A.DECRYPT"
  else if mnemonic = "B.ENCRYPT.IP" then some "B.ENCRYPT"
  else if mnemonic = "B.DECRYPT.IP" then some "B.DECRYPT"
  else if mnemonic = "C.ENCRYPT.IP" then some "C.ENCRYPT"
  else if mnemonic = "C.DECRYPT.IP" then some "C.DECRYPT"
  else none

/-- `E.ENCRYPT.IP buf=<a>:<l>` stands for `E.ENCRYPT dst=<a>:<l>, src=<a>:<l>`, and so for `DECRYPT`
(R79). -/
def expandPseudo (line : AsmLine) : AsmLine :=
  match pseudoBase line.mnemonic, line.operands with
  | some base, [.buffer .buf addr len] =>
    { mnemonic := base, operands := [.buffer .dst addr len, .buffer .src addr len] }
  | _, _ => line

/-- A number on a 32-bit port, if it fits (R73). -/
def asWord (v : Nat) : Option Word := if v < 2 ^ 32 then some (BitVec.ofNat 32 v) else none

/-- A number on an address port, if it fits (R73). -/
def asAddr (cfg : Config) (v : Nat) : Option Nat := if cfg.addrFits v then some v else none

/-- All numbers on 32-bit ports. -/
def asWords : List Nat → Option (List Word)
  | [] => some []
  | v :: rest => (asWord v).bind fun w => (asWords rest).map fun ws => w :: ws

/-- The `K` operands in the order of R72. -/
def asKey (cfg : Config) (make : Nat → Word → Instr) : List PortValue → Option Instr
  | [.number .keyAddr a, .number .keyLen l] =>
    (asAddr cfg a).bind fun a => (asWord l).map fun l => make a l
  | _ => none

/-- The `X` operands in the order of R72. -/
def asBuffers (cfg : Config) (make : Nat → Word → Nat → Word → Instr) : List PortValue → Option Instr
  | [.number .dstAddr d, .number .dstLen dl, .number .srcAddr a, .number .srcLen al] =>
    (asAddr cfg d).bind fun d => (asWord dl).bind fun dl => (asAddr cfg a).bind fun a =>
      (asWord al).map fun al => make d dl a al
  | _ => none

/-- The command of no operand. -/
def asBare (i : Instr) : List PortValue → Option Instr
  | [] => some i
  | _ => none

/-- The command of a mnemonic with these values on its ports; none when the mnemonic is not one of R74 or
the ports are not those of its format in the order of R72. -/
def assemblePorts (cfg : Config) (mnemonic : String) (ports : List PortValue) : Option Instr :=
  if mnemonic = "CDC.B2W" then
    match ports with
    | [.number .srcAddr a, .number .srcLen l] =>
      (asAddr cfg a).bind fun a => (asWord l).map fun l => .cdcB2w a l
    | _ => none
  else if mnemonic = "CDC.W2B" then
    match ports with
    | [.number .dstAddr d, .number .dstLen dl, .number .count n, .words ws] =>
      if n = ws.length then
        (asAddr cfg d).bind fun d => (asWord dl).bind fun dl => (asWord n).bind fun n =>
          (asWords ws).map fun ws => .cdcW2b d dl n ws
      else none
    | _ => none
  else if mnemonic = "A.CONSTRUCT" then asKey cfg .aConstruct ports
  else if mnemonic = "A.BLOCKSIZE" then asBare .aBlocksize ports
  else if mnemonic = "A.ENCRYPT" then asBuffers cfg .aEncrypt ports
  else if mnemonic = "A.DECRYPT" then asBuffers cfg .aDecrypt ports
  else if mnemonic = "B.CONSTRUCT" then asKey cfg .bConstruct ports
  else if mnemonic = "B.BLOCKSIZE" then asBare .bBlocksize ports
  else if mnemonic = "B.ENCRYPT" then asBuffers cfg .bEncrypt ports
  else if mnemonic = "B.DECRYPT" then asBuffers cfg .bDecrypt ports
  else if mnemonic = "B.WIPE" then asBare .bWipe ports
  else if mnemonic = "C.CONSTRUCT" then
    match ports with
    | [.number .keyAddr a, .number .keyLen l, .number .blockSize bs] =>
      (asAddr cfg a).bind fun a => (asWord l).bind fun l => (asWord bs).map fun bs => .cConstruct a l bs
    | _ => none
  else if mnemonic = "C.BLOCKSIZE" then asBare .cBlocksize ports
  else if mnemonic = "C.ENCRYPT" then asBuffers cfg .cEncrypt ports
  else if mnemonic = "C.DECRYPT" then asBuffers cfg .cDecrypt ports
  else none

/-- The command a line stands for, or none when it is not a line of R78, R79. The words of `words_in` are
as many as `count` says (R73). -/
def assemble (cfg : Config) (line : AsmLine) : Option Instr :=
  let line := expandPseudo line
  (linePorts line.operands).bind fun ports => assemblePorts cfg line.mnemonic ports

/-- The operands of format `K` in a listing. -/
def keyOperands (keyAddr : Nat) (keyLen : Word) : List AsmOperand := [.buffer .key keyAddr keyLen.toNat]

/-- The operands of format `X` in a listing. -/
def bufferOperands (dstAddr : Nat) (dstLen : Word) (srcAddr : Nat) (srcLen : Word) : List AsmOperand :=
  [.buffer .dst dstAddr dstLen.toNat, .buffer .src srcAddr srcLen.toNat]

/-- The operands a command is listed with (R78). -/
def operandsOf : Instr → List AsmOperand
  | .cdcB2w srcAddr srcLen => [.buffer .src srcAddr srcLen.toNat]
  | .cdcW2b dstAddr dstLen _ wordsIn =>
    [.buffer .dst dstAddr dstLen.toNat, .words (wordsIn.map BitVec.toNat)]
  | .aConstruct keyAddr keyLen => keyOperands keyAddr keyLen
  | .aBlocksize => []
  | .aEncrypt dstAddr dstLen srcAddr srcLen => bufferOperands dstAddr dstLen srcAddr srcLen
  | .aDecrypt dstAddr dstLen srcAddr srcLen => bufferOperands dstAddr dstLen srcAddr srcLen
  | .bConstruct keyAddr keyLen => keyOperands keyAddr keyLen
  | .bBlocksize => []
  | .bEncrypt dstAddr dstLen srcAddr srcLen => bufferOperands dstAddr dstLen srcAddr srcLen
  | .bDecrypt dstAddr dstLen srcAddr srcLen => bufferOperands dstAddr dstLen srcAddr srcLen
  | .bWipe => []
  | .cConstruct keyAddr keyLen blockSize =>
    keyOperands keyAddr keyLen ++ [.number .blockSize blockSize.toNat]
  | .cBlocksize => []
  | .cEncrypt dstAddr dstLen srcAddr srcLen => bufferOperands dstAddr dstLen srcAddr srcLen
  | .cDecrypt dstAddr dstLen srcAddr srcLen => bufferOperands dstAddr dstLen srcAddr srcLen

/-- The line of a listing for a command (R78). -/
def listing (i : Instr) : AsmLine := { mnemonic := mnemonicOf i, operands := operandsOf i }

end Sys2Proof.Machine
end

