-- ==== Sys2Proof/Machine/CarriedForm.lean ====
section
/-! DEFINITION. The source's carried-variable form of engine C's datapath (43_cipher_c.md R150). The index
form of Machine/CipherC.lean is the normative one and the one the commands run; R150 says the two
compute the same function, which the obligations state. -/

namespace Sys2Proof.Machine

/-- The words, and the carried operand: `z`, passed as `v1`, when encrypting; `y`, passed as `v0`, when
decrypting. -/
structure CarriedState where
  w : List Word
  carried : Word
  sum : Word
deriving DecidableEq, Repr

/-- `W[p] <- W[p] + mx(y, z, sum, p, e); z <- W[p]` with `y` the freshly read word at `right`. -/
def carriedEncryptStep (k : Quad Word) (e : BitVec 2) (right p : Nat) (r : CarriedState) :
    CarriedState :=
  let v := wordAt r.w p + mx k (wordAt r.w right) r.carried r.sum p e
  { r with w := r.w.set p v, carried := v }

/-- `W[p] <- W[p] - mx(y, z, sum, p, e); y <- W[p]` with `z` the freshly read word at `left`. -/
def carriedDecryptStep (k : Quad Word) (e : BitVec 2) (left p : Nat) (r : CarriedState) :
    CarriedState :=
  let v := wordAt r.w p - mx k r.carried (wordAt r.w left) r.sum p e
  { r with w := r.w.set p v, carried := v }

/-- One round, encrypting: the pass over `p = 0 .. n-2`, then the ring-closing update of `W[n-1]`. -/
def carriedEncryptRound (k : Quad Word) (n : Nat) (r : CarriedState) : CarriedState :=
  let sum := r.sum + delta
  let e := roundIndex sum
  carriedEncryptStep k e 0 (n - 1)
    ((List.range (n - 1)).foldl (fun r p => carriedEncryptStep k e (p + 1) p r) { r with sum := sum })

/-- One round, decrypting: the pass over `p = n-1` down to 1, then the ring-closing undo of `W[0]`. -/
def carriedDecryptRound (k : Quad Word) (n : Nat) (r : CarriedState) : CarriedState :=
  let e := roundIndex r.sum
  let r' := carriedDecryptStep k e (n - 1) 0
    ((List.range (n - 1)).reverse.foldl (fun r p => carriedDecryptStep k e p (p + 1) r) r)
  { r' with sum := r.sum - delta }

/-- The carried-variable form of `c_encrypt` (R150): `z <- W[n-1]` once, before the first round. -/
def carriedEncryptBlock (k : Quad Word) (n : Nat) (block : List Byte) : List Byte :=
  let w := bytesToWords block
  wordsToBytes (repeatTimes (carriedEncryptRound k n) (roundsC n)
    { w := w, carried := wordAt w (n - 1), sum := 0 }).w

/-- The carried-variable form of `c_decrypt` (R150): `y <- W[0]` once, before the first round. -/
def carriedDecryptBlock (k : Quad Word) (n : Nat) (block : List Byte) : List Byte :=
  let w := bytesToWords block
  wordsToBytes (repeatTimes (carriedDecryptRound k n) (roundsC n)
    { w := w, carried := wordAt w 0, sum := deltaTimes (roundsC n) }).w

end Sys2Proof.Machine
end

