-- ==== Sys2Proof/Safety.lean ====
section
/-! DEFINITION. What claims are stated in: the invariant of the machine (10_state.md R23, R24; 20_memory.md
R50), the two kinds of non-OK status (60_exceptions.md R180), and what the host can observe (00_scope.md
R17). -/

namespace Sys2Proof.Machine

/-- A status that stands for a caller precondition violation: every non-OK status but
`INVALID_KEY_SIZE`, "the source's one recoverable error" (R180). The hardware completes the command
(R178) and a run that holds such a completion is not a good run (93 part 1: refuse; fault). -/
def Status.isPreconditionViolation : Status → Bool
  | .ok => false
  | .invalidKeySize => false
  | .illegalCommand => true
  | .noInstance => true
  | .keyWiped => true
  | .bufferLength => true
  | .blockSize => true
  | .addressRange => true

/-- The completion recorded in the state is one a good run may hold (R180). -/
def State.good (s : State) : Bool := !s.status.isPreconditionViolation

/-- A run of `n` steps in which every state reached is good: the premise "no precondition-violation
status occurred" of R180, for a claim about a program of commands. -/
def goodRun : Nat → State → Bool
  | 0, s => s.good
  | n + 1, s =>
    s.good && match step s with
      | .next t => goodRun n t
      | .fault _ => false
      | .refused _ => false

/-- Engine A without an instance holds no key material (10_state.md R33, R31). -/
def EngineA.inv (a : EngineA) : Bool := a.valid || decide (a.k = ⟨0, 0, 0, 0⟩)

/-- `B.K[i] = be_decode(B.KB[4i .. 4i+3])` (10_state.md R23); a wiped or never constructed engine B holds
zeros (R129, R33); only an existing instance is wiped (R129). -/
def EngineB.inv (b : EngineB) : Bool :=
  decide (b.k = keyWords b.kb) && (!b.wiped || (b.valid && decide (b.kb = zeroKey)))
    && (b.valid || decide (b.kb = zeroKey))

/-- When `C.valid = 1`: `C.BS mod 4 = 0`, `8 <= C.BS`, `C.BS / 4 <= NMAX` (10_state.md R24); without an
instance, zeros (R33). -/
def EngineC.inv (cfg : Config) (c : EngineC) : Bool :=
  if c.valid then
    decide (c.bs.toNat % 4 = 0) && decide (8 ≤ c.bs.toNat) && decide (c.bs.toNat / 4 ≤ cfg.nmax)
  else decide (c.k = ⟨0, 0, 0, 0⟩) && decide (c.bs = 0)

/-- `INFO` is 0 for `OK` (R29), and a result port has a value only beside `OK`, at most one of them
(30_encoding.md R75). -/
def State.portsInv (s : State) : Bool :=
  (decide (s.status ≠ .ok) || decide (s.info = 0))
    && (decide (s.status = .ok) || (s.result.isNone && s.wordsOut.isNone))
    && (s.result.isNone || s.wordsOut.isNone)

/-- The invariant of the machine: it holds at reset and every step keeps it. -/
def State.inv (s : State) : Bool :=
  s.cfg.wf && s.a.inv && s.b.inv && s.c.inv s.cfg && s.portsInv && s.mem.wf && s.mem.within s.cfg

/-- What the host can observe between commands (R17): the registers and result ports. `M` is observed
through `Memory.read`. -/
structure Observation where
  status : Status
  info : Word
  result : Option Word
  wordsOut : Option (List Word)
deriving DecidableEq, Repr

/-- The observation of a state. -/
def State.observe (s : State) : Observation :=
  { status := s.status, info := s.info, result := s.result, wordsOut := s.wordsOut }

/-- `InRange(a, L)` in the words of 20_memory.md R59. -/
def InRange (cfg : Config) (a len : Nat) : Prop :=
  a + len ≤ 2 ^ cfg.xaddr ∧ ∀ x, a ≤ x → x < a + len → mapped cfg x = true

/-- `s` after a completion that writes `STATUS` and `INFO` and nothing else of the machine (R178; R75: the
result ports then have no value). -/
def State.answered (s : State) (status : Status) (info : Word) : State :=
  { s with status := status, info := info, result := none, wordsOut := none }

/-- The two commands hold the same values on the ports the format samples (30_encoding.md R72). -/
def samePorts : Format → Command → Command → Prop
  | .n, _, _ => True
  | .k, c, d => c.keyAddr = d.keyAddr ∧ c.keyLen = d.keyLen
  | .kc, c, d => c.keyAddr = d.keyAddr ∧ c.keyLen = d.keyLen ∧ c.blockSize = d.blockSize
  | .x, c, d =>
    c.dstAddr = d.dstAddr ∧ c.dstLen = d.dstLen ∧ c.srcAddr = d.srcAddr ∧ c.srcLen = d.srcLen
  | .r, c, d => c.srcAddr = d.srcAddr ∧ c.srcLen = d.srcLen
  | .w, c, d =>
    c.dstAddr = d.dstAddr ∧ c.dstLen = d.dstLen ∧ c.count = d.count ∧ c.wordsIn = d.wordsIn

/-- The codes of the fifteen commands, as the table of 30_encoding.md R74 lists them. -/
def commandCodes : List (BitVec 8) :=
  [0x00, 0x01, 0x10, 0x11, 0x12, 0x13, 0x20, 0x21, 0x22, 0x23, 0x24, 0x30, 0x31, 0x32, 0x33]

/-- The commands that may write engine registers (10_state.md R32): every `CONSTRUCT`, and `B.WIPE`. -/
def writesEngine : Instr → Bool
  | .cdcB2w _ _ => false
  | .cdcW2b _ _ _ _ => false
  | .aConstruct _ _ => true
  | .aBlocksize => false
  | .aEncrypt _ _ _ _ => false
  | .aDecrypt _ _ _ _ => false
  | .bConstruct _ _ => true
  | .bBlocksize => false
  | .bEncrypt _ _ _ _ => false
  | .bDecrypt _ _ _ _ => false
  | .bWipe => true
  | .cConstruct _ _ _ => true
  | .cBlocksize => false
  | .cEncrypt _ _ _ _ => false
  | .cDecrypt _ _ _ _ => false

/-- Two buffers share no byte. -/
def disjointBuffers (a alen b blen : Nat) : Prop := a + alen ≤ b ∨ b + blen ≤ a

end Sys2Proof.Machine
end

