-- ==== Sys2Proof/Certificates/Slice0/Obligations.lean ====
section
/-! DEFINITION. The statements for the provers. Each docstring names the rule it formalises. No statement
rests on a free value (notes/assumptions/1.md, 2.md, 5.md, 6.md): each holds for every value of it. -/

open Sys2Proof Sys2Proof.Machine

/-! ## Encoding -/

/-- 30_encoding.md R74: the code map. Each of the fifteen codes decodes to its command, with the operands
of its format taken from the ports; no other code decodes, so `0x14` and `0x34` are not commands. -/
def Obligations.CommandCodesDecodeAsTabulated : Prop :=
  ∀ (cfg : Config) (c : Command), c.wf cfg = true →
    (c.code = 0b00000000#8 → decode cfg c = .ok (.cdcB2w c.srcAddr c.srcLen)) ∧
    (c.code = 0b00000001#8 → decode cfg c = .ok (.cdcW2b c.dstAddr c.dstLen c.count c.wordsIn)) ∧
    (c.code = 0b00010000#8 → decode cfg c = .ok (.aConstruct c.keyAddr c.keyLen)) ∧
    (c.code = 0b00010001#8 → decode cfg c = .ok .aBlocksize) ∧
    (c.code = 0b00010010#8 →
      decode cfg c = .ok (.aEncrypt c.dstAddr c.dstLen c.srcAddr c.srcLen)) ∧
    (c.code = 0b00010011#8 →
      decode cfg c = .ok (.aDecrypt c.dstAddr c.dstLen c.srcAddr c.srcLen)) ∧
    (c.code = 0b00100000#8 → decode cfg c = .ok (.bConstruct c.keyAddr c.keyLen)) ∧
    (c.code = 0b00100001#8 → decode cfg c = .ok .bBlocksize) ∧
    (c.code = 0b00100010#8 →
      decode cfg c = .ok (.bEncrypt c.dstAddr c.dstLen c.srcAddr c.srcLen)) ∧
    (c.code = 0b00100011#8 →
      decode cfg c = .ok (.bDecrypt c.dstAddr c.dstLen c.srcAddr c.srcLen)) ∧
    (c.code = 0b00100100#8 → decode cfg c = .ok .bWipe) ∧
    (c.code = 0b00110000#8 → decode cfg c = .ok (.cConstruct c.keyAddr c.keyLen c.blockSize)) ∧
    (c.code = 0b00110001#8 → decode cfg c = .ok .cBlocksize) ∧
    (c.code = 0b00110010#8 →
      decode cfg c = .ok (.cEncrypt c.dstAddr c.dstLen c.srcAddr c.srcLen)) ∧
    (c.code = 0b00110011#8 →
      decode cfg c = .ok (.cDecrypt c.dstAddr c.dstLen c.srcAddr c.srcLen)) ∧
    (c.code ∉ commandCodes → ∃ e, decode cfg c = .error e)

/-- A few command codes written out bit by bit from R74's table decode to the commands they stand for. -/
def Obligations.WrittenOutCodesDecode : Prop :=
  decodeTableWord 8 0b00000000 = some (.cdcB2w 0 0) ∧
  decodeTableWord 8 0b00010010 = some (.aEncrypt 0 0 0 0) ∧
  decodeTableWord 8 0b00100100 = some .bWipe ∧
  decodeTableWord 8 0b00110000 = some (.cConstruct 0 0 0) ∧
  decodeTableWord 8 0b00010100 = none ∧ decodeTableWord 8 0b01000000 = none

/-- 30_encoding.md R76, 60_exceptions.md R172: a code that is none of the fifteen completes with
`ILLEGAL_COMMAND`, `INFO` the code zero-extended, nothing else changed, whatever the operand ports hold;
241 of the 256 codes are such, and which they are. -/
def Obligations.IllegalCodeCompletesWithIllegalCommand : Prop :=
  (∀ (s : State) (c : Command) (rest : List HostEvent), s.pending = .command c :: rest →
    c.code ∉ commandCodes →
    step s = .next (({ s with pending := rest, tick := s.tick + 1 } : State).answered
      .illegalCommand (c.code.setWidth 32))) ∧
  (∀ c : BitVec 8, c ∉ commandCodes ↔
    (0x40 ≤ c.toNat ∨ (0x02 ≤ c.toNat ∧ c.toNat ≤ 0x0F) ∨ (0x14 ≤ c.toNat ∧ c.toNat ≤ 0x1F) ∨
      (0x25 ≤ c.toNat ∧ c.toNat ≤ 0x2F) ∨ (0x34 ≤ c.toNat ∧ c.toNat ≤ 0x3F))) ∧
  ((List.range 256).filter (fun n => decide (BitVec.ofNat 8 n ∉ commandCodes))).length = 241

/-- Decoding what the encoder presents gives the instruction back, for every command and every operand
value its ports can carry (30_encoding.md R71 to R74). -/
def Obligations.DecodeInvertsEncode : Prop :=
  ∀ (cfg : Config) (i : Instr), i.wf cfg = true → decode cfg (encode i) = .ok i

/-- A legal command means the same as the encoding of what it decodes to: the code and the sampled ports
are all there is to it, and the decoded operands fit their ports (30_encoding.md R70 to R73). -/
def Obligations.EncodeInvertsDecode : Prop :=
  ∀ (cfg : Config) (c : Command) (i : Instr), c.wf cfg = true → decode cfg c = .ok i →
    (encode i).code = c.code ∧ samePorts i.format (encode i) c ∧ i.wf cfg = true

/-- 30_encoding.md R72: the format of each command is fixed by its code, and "A port a format does not
sample is ignored: its value has no effect and is not checked." -/
def Obligations.UnsampledPortsHaveNoEffect : Prop :=
  ∀ (s : State) (c d : Command) (i : Instr), decode s.cfg c = .ok i →
    (i.format = .n ↔ c.code ∈ [0x11#8, 0x21#8, 0x31#8, 0x24#8]) ∧
    (i.format = .k ↔ c.code ∈ [0x10#8, 0x20#8]) ∧ (i.format = .kc ↔ c.code = 0x30#8) ∧
    (i.format = .x ↔ c.code ∈ [0x12#8, 0x13#8, 0x22#8, 0x23#8, 0x32#8, 0x33#8]) ∧
    (i.format = .r ↔ c.code = 0x00#8) ∧ (i.format = .w ↔ c.code = 0x01#8) ∧
    (d.code = c.code → samePorts i.format c d → runCommand d s = runCommand c s)

/-- Listing a command and assembling the line gives the command back (30_encoding.md R78). -/
def Obligations.AssembleInvertsListing : Prop :=
  ∀ (cfg : Config) (i : Instr), i.wf cfg = true → assemble cfg (listing i) = some i

/-- 30_encoding.md R79: the in-place pseudo-commands, and no others. -/
def Obligations.PseudoCommandsExpandInPlace : Prop :=
  (∀ (cfg : Config) (a : Nat) (l : Word), cfg.addrFits a = true →
    assemble cfg ⟨"A.ENCRYPT.IP", [.buffer .buf a l.toNat]⟩ = some (.aEncrypt a l a l) ∧
    assemble cfg ⟨"A.DECRYPT.IP", [.buffer .buf a l.toNat]⟩ = some (.aDecrypt a l a l) ∧
    assemble cfg ⟨"B.ENCRYPT.IP", [.buffer .buf a l.toNat]⟩ = some (.bEncrypt a l a l) ∧
    assemble cfg ⟨"B.DECRYPT.IP", [.buffer .buf a l.toNat]⟩ = some (.bDecrypt a l a l) ∧
    assemble cfg ⟨"C.ENCRYPT.IP", [.buffer .buf a l.toNat]⟩ = some (.cEncrypt a l a l) ∧
    assemble cfg ⟨"C.DECRYPT.IP", [.buffer .buf a l.toNat]⟩ = some (.cDecrypt a l a l)) ∧
  (∀ m : String, m ∉ ["A.ENCRYPT.IP", "A.DECRYPT.IP", "B.ENCRYPT.IP", "B.DECRYPT.IP",
    "C.ENCRYPT.IP", "C.DECRYPT.IP"] → pseudoBase m = none)

/-! ## The step, the host and reset -/

/-- A step with a legal command presented runs exactly that command, on the state with the event taken
off the model's list of events (`pending`) and counted (`tick`; notes/assumptions/4.md). With nothing presented the CORE "is idle
and keeps all the state" (60_exceptions.md R195). -/
def Obligations.StepRunsTheDecodedCommand : Prop :=
  (∀ (s : State) (c : Command) (rest : List HostEvent) (i : Instr),
    s.pending = .command c :: rest → decode s.cfg c = .ok i →
    step s = exec i { s with pending := rest, tick := s.tick + 1 }) ∧
  (∀ s : State, s.pending = [] → step s = .next s)

/-- 10_state.md R33: what reset leaves. The last clause, that no byte of memory is listed, is the model's form
of a memory reset does not write (notes/assumptions/1.md). -/
def Obligations.ResetStateHoldsTheSpecValues : Prop :=
  State.reset.a = { valid := false, k := ⟨0, 0, 0, 0⟩ } ∧
  State.reset.b = { valid := false, wiped := false, kb := zeroKey, k := ⟨0, 0, 0, 0⟩ } ∧
  (∀ j, j < 16 → (State.reset.b.kb.toList.map Quad.toList).flatten[j]? = some 0) ∧
  State.reset.c = { valid := false, k := ⟨0, 0, 0, 0⟩, bs := 0 } ∧
  State.reset.status.code = 0x00#8 ∧ State.reset.info = 0 ∧
  State.reset.result = none ∧ State.reset.wordsOut = none ∧ State.reset.mem = []

/-- 70_reset_and_hazards.md R200: the reset event puts every register at its value of R33, whatever the CORE
was doing, and does not write `M`; the CORE then accepts a command; nothing else returns an engine to the no-instance state. -/
def Obligations.ResetEventClearsRegistersAndKeepsMemory : Prop :=
  (∀ (s : State) (rest : List HostEvent), s.pending = .reset :: rest →
    ∃ t, step s = .next t ∧ t.a = State.reset.a ∧ t.b = State.reset.b ∧ t.c = State.reset.c ∧
      t.status = .ok ∧ t.info = 0 ∧ t.result = none ∧ t.wordsOut = none ∧ t.mem = s.mem ∧
      t.cfg = s.cfg ∧ t.pending = rest) ∧
  (∀ (s : State) (c : Command) (rest : List HostEvent), s.pending = .resetDuring c :: rest →
    ∃ t, step s = .next t ∧ t.a = State.reset.a ∧ t.b = State.reset.b ∧ t.c = State.reset.c ∧
      t.status = .ok ∧ t.info = 0 ∧ t.result = none ∧ t.wordsOut = none ∧ t.pending = rest) ∧
  (∀ (s : State) (c : Command) (rest : List HostEvent), s.pending = .reset :: .command c :: rest →
    ∃ t u, step s = .next t ∧ step t = .next u ∧ u.pending = rest) ∧
  (∀ s t : State, step s = .next t →
    (∀ rest, s.pending ≠ .reset :: rest) → (∀ c rest, s.pending ≠ .resetDuring c :: rest) →
    (s.a.valid = true → t.a.valid = true) ∧ (s.b.valid = true → t.b.valid = true) ∧
    (s.c.valid = true → t.c.valid = true))

/-- 70_reset_and_hazards.md R201: a command that reset ends early has no completion, the engines are at
their reset state, and each byte of its destination buffer holds its value from before the command or
the value the command would have written; every other byte of `M` is as before. -/
def Obligations.ResetDuringCommandLeavesOldOrNewBytes : Prop :=
  ∀ (s s' t : State) (c : Command) (rest : List HostEvent) (i : Instr),
    s.pending = .resetDuring c :: rest → decode s.cfg c = .ok i →
    s' = { s with pending := rest, tick := s.tick + 1 } → exec i s' = .next t →
    ∃ u, step s = .next u ∧ u.a = State.reset.a ∧ u.b = State.reset.b ∧ u.c = State.reset.c ∧
      u.status = .ok ∧ u.info = 0 ∧ u.result = none ∧ u.wordsOut = none ∧
      ∀ x, u.mem.read x = s.mem.read x ∨
        ((destination s' i).1 ≤ x ∧ x < (destination s' i).1 + (destination s' i).2 ∧
          u.mem.read x = t.mem.read x)

/-- A host write between commands is what later reads of those bytes give, until they are written again;
it changes no other byte and no register (20_memory.md R57, R53). The event list and count are the
model's (notes/assumptions/4.md). -/
def Obligations.HostWriteIsSeenAndTouchesNothingElse : Prop :=
  ∀ (s : State) (a : Nat) (bytes : List Byte) (rest : List HostEvent),
    s.pending = .write a bytes :: rest → InRange s.cfg a bytes.length →
    ∃ m, step s = .next { s with mem := m, pending := rest, tick := s.tick + 1 } ∧
      memRead m a bytes.length = bytes ∧
      ∀ x, ¬(a ≤ x ∧ x < a + bytes.length) → m.read x = s.mem.read x

/-- 30_encoding.md R75: which completion gives `RESULT` and `WORDS_OUT` a value, and that reading a port
without one is a fault while reading one with a value changes no register and no byte. That the ports can
be read between commands is the model's choice (notes/assumptions/9.md). -/
def Obligations.ResultPortsHaveValuesOnlyWhereNamed : Prop :=
  (∀ (i : Instr) (s t : State), exec i s = .next t →
    (t.result.isSome = true ↔
      t.status = .ok ∧ (i = .aBlocksize ∨ i = .bBlocksize ∨ i = .cBlocksize)) ∧
    (t.wordsOut.isSome = true ↔ t.status = .ok ∧ ∃ a l, i = .cdcB2w a l)) ∧
  (∀ (s : State) (rest : List HostEvent), s.pending = .read .result :: rest →
    (s.result = none → step s = .fault .portWithoutValue) ∧
    (∀ v, s.result = some v → step s = .next { s with pending := rest, tick := s.tick + 1 })) ∧
  (∀ (s : State) (rest : List HostEvent), s.pending = .read .wordsOut :: rest →
    (s.wordsOut = none → step s = .fault .portWithoutValue) ∧
    (∀ ws, s.wordsOut = some ws → step s = .next { s with pending := rest, tick := s.tick + 1 }))

/-! ## Memory and the Word Codec -/

/-- 20_memory.md R52 and R53: what `MemRead` returns, and what `MemWrite` changes and leaves. -/
def Obligations.MemReadAndMemWriteMoveExactlyTheirBytes : Prop :=
  (∀ (m : Memory) (a len : Nat), (memRead m a len).length = len ∧
    ∀ i, i < len → (memRead m a len)[i]? = some (m.read (a + i))) ∧
  (∀ (m : Memory) (a : Nat) (bs : List Byte),
    (∀ i, i < bs.length → some ((memWrite m a bs).read (a + i)) = bs[i]?) ∧
    (∀ x, ¬(a ≤ x ∧ x < a + bs.length) → (memWrite m a bs).read x = m.read x) ∧
    memWrite m a [] = m)

/-- 40_codec.md R90: `be_decode` is total and gives the byte at the lowest offset bits 31:24. -/
def Obligations.BigEndianDecodeValue : Prop :=
  ∀ b : Quad Byte,
    (beDecode b).toNat
      = b.x0.toNat * 2 ^ 24 + b.x1.toNat * 2 ^ 16 + b.x2.toNat * 2 ^ 8 + b.x3.toNat ∧
    (beDecode b).extractLsb' 24 8 = b.x0 ∧ (beDecode b).extractLsb' 16 8 = b.x1 ∧
    (beDecode b).extractLsb' 8 8 = b.x2 ∧ (beDecode b).extractLsb' 0 8 = b.x3

/-- 40_codec.md R91: `be_encode` gives `( w[31:24], w[23:16], w[15:8], w[7:0] )`, and it and `be_decode`
are inverse. -/
def Obligations.BigEndianEncodeInvertsDecode : Prop :=
  (∀ w : Word, beEncode w = ⟨BitVec.ofNat 8 (w.toNat / 2 ^ 24), BitVec.ofNat 8 (w.toNat / 2 ^ 16),
    BitVec.ofNat 8 (w.toNat / 2 ^ 8), BitVec.ofNat 8 w.toNat⟩) ∧
  (∀ w : Word, beDecode (beEncode w) = w) ∧ (∀ b : Quad Byte, beEncode (beDecode b) = b)

/-- 40_codec.md R92 and R93: word j stands at byte offsets 4j .. 4j+3 in both directions, and
`bytes_to_words` and `words_to_bytes` are inverse. -/
def Obligations.WordSequenceCodecInverse : Prop :=
  (∀ (bs : List Byte), bs.length % 4 = 0 →
    (bytesToWords bs).length = bs.length / 4 ∧
    (∀ (j : Nat) (b0 b1 b2 b3 : Byte), bs[4 * j]? = some b0 → bs[4 * j + 1]? = some b1 →
      bs[4 * j + 2]? = some b2 → bs[4 * j + 3]? = some b3 →
      (bytesToWords bs)[j]? = some (beDecode ⟨b0, b1, b2, b3⟩)) ∧
    wordsToBytes (bytesToWords bs) = bs) ∧
  (∀ (ws : List Word),
    (wordsToBytes ws).length = 4 * ws.length ∧
    (∀ (j : Nat) (w : Word), ws[j]? = some w →
      (wordsToBytes ws)[4 * j]? = some (beEncode w).x0 ∧
      (wordsToBytes ws)[4 * j + 1]? = some (beEncode w).x1 ∧
      (wordsToBytes ws)[4 * j + 2]? = some (beEncode w).x2 ∧
      (wordsToBytes ws)[4 * j + 3]? = some (beEncode w).x3) ∧
    bytesToWords (wordsToBytes ws) = ws)

/-- 10_state.md R25: `ki = key[4i] * 2^24 + key[4i+1] * 2^16 + key[4i+2] * 2^8 + key[4i+3]`, the sixteen
key bytes in buffer order. -/
def Obligations.KeyWordsComeFromKeyBytesInOrder : Prop :=
  ∀ (m : Memory) (a i : Nat), i < 4 →
    ((keyWords (memReadKey m a)).get (BitVec.ofNat 2 i)).toNat
      = (m.read (a + 4 * i)).toNat * 2 ^ 24 + (m.read (a + 4 * i + 1)).toNat * 2 ^ 16
        + (m.read (a + 4 * i + 2)).toNat * 2 ^ 8 + (m.read (a + 4 * i + 3)).toNat ∧
    ((memReadKey m a).toList.map Quad.toList).flatten = memRead m a 16

/-- 40_codec.md R94: `CDC.B2W`. -/
def Obligations.CdcB2wCommand : Prop :=
  ∀ (s : State) (src : Nat) (srcLen : Word),
    (srcLen.toNat % 4 ≠ 0 →
      exec (.cdcB2w src srcLen) s = .next (s.answered .bufferLength srcLen)) ∧
    (srcLen.toNat % 4 = 0 → ¬InRange s.cfg src srcLen.toNat →
      exec (.cdcB2w src srcLen) s = .next (s.answered .addressRange 1)) ∧
    (srcLen.toNat % 4 = 0 → InRange s.cfg src srcLen.toNat →
      exec (.cdcB2w src srcLen) s = .next { s.answered .ok 0 with
        wordsOut := some (bytesToWords (memRead s.mem src srcLen.toNat)) } ∧
      (bytesToWords (memRead s.mem src srcLen.toNat)).length = srcLen.toNat / 4)

/-- 40_codec.md R95: `CDC.W2B`, for the `count` words the host presents (R73). The bytes beyond
`4 * count` are not written. -/
def Obligations.CdcW2bCommand : Prop :=
  ∀ (s : State) (dst : Nat) (dstLen count : Word) (ws : List Word), ws.length = count.toNat →
    (dstLen.toNat % 4 ≠ 0 ∨ dstLen.toNat < 4 * count.toNat →
      exec (.cdcW2b dst dstLen count ws) s = .next (s.answered .bufferLength dstLen)) ∧
    (dstLen.toNat % 4 = 0 → 4 * count.toNat ≤ dstLen.toNat → ¬InRange s.cfg dst dstLen.toNat →
      exec (.cdcW2b dst dstLen count ws) s = .next (s.answered .addressRange 2)) ∧
    (dstLen.toNat % 4 = 0 → 4 * count.toNat ≤ dstLen.toNat → InRange s.cfg dst dstLen.toNat →
      exec (.cdcW2b dst dstLen count ws) s
        = .next (({ s with mem := memWrite s.mem dst (wordsToBytes ws) } : State).answered .ok 0) ∧
      (∀ x, ¬(dst ≤ x ∧ x < dst + 4 * count.toNat) →
        (memWrite s.mem dst (wordsToBytes ws)).read x = s.mem.read x))

/-! ## Engine A -/

/-- 41_cipher_a.md R101 to R103: `FA` in the arithmetic of 00_scope.md R11, on numbers below 2^32; the 32
rounds of `a_encrypt`, each `v0` from the old `v1` and `v1` from the new `v0` with the round's
`sum = r * DELTA`; and of `a_decrypt`, `v1` undone first, with `sum = 32 * DELTA` down to `DELTA`. -/
def Obligations.RoundsOfCipherA : Prop :=
  (∀ x sum ka kb : Word, (fA x sum ka kb).toNat
    = ((x.toNat * 16 % 2 ^ 32 + ka.toNat) % 2 ^ 32) ^^^ ((x.toNat + sum.toNat) % 2 ^ 32)
      ^^^ ((x.toNat / 32 + kb.toNat) % 2 ^ 32)) ∧
  (∀ (k : Quad Word) (block : List Byte), block.length = 8 → ∃ v0 v1 : Nat → Word,
    bytesToWords block = [v0 0, v1 0] ∧
    (∀ r, r < 32 →
      v0 (r + 1) = v0 r + fA (v1 r) (deltaTimes (r + 1)) k.x0 k.x1 ∧
      v1 (r + 1) = v1 r + fA (v0 (r + 1)) (deltaTimes (r + 1)) k.x2 k.x3) ∧
    aEncryptBlock k block = wordsToBytes [v0 32, v1 32]) ∧
  (∀ (k : Quad Word) (block : List Byte), block.length = 8 → ∃ v0 v1 : Nat → Word,
    bytesToWords block = [v0 0, v1 0] ∧
    (∀ j, j < 32 →
      v1 (j + 1) = v1 j - fA (v0 j) (deltaTimes (32 - j)) k.x2 k.x3 ∧
      v0 (j + 1) = v0 j - fA (v1 (j + 1)) (deltaTimes (32 - j)) k.x0 k.x1) ∧
    aDecryptBlock k block = wordsToBytes [v0 32, v1 32]) ∧
  delta <<< 5 = deltaTimes 32 ∧ deltaTimes 32 = 0xC6EF3720#32 ∧ deltaTimes 0 = 0#32

/-- The `sum` of every round of engines A and B: `r * DELTA` after encryption round r, `(32 - j) * DELTA`
after decryption iteration j, so `0xC6EF3720` after the last encryption round and 0 after the last
iteration (41_cipher_a.md R102, R103; 42_cipher_b.md R124, R125). -/
def Obligations.RoundSumsOfEnginesAAndB : Prop :=
  ∀ (k : Quad Word) (block : List Byte) (r : Nat), r ≤ 32 →
    (repeatTimes (aEncryptRound k) r (startRounds 0 block)).sum = deltaTimes r ∧
    (repeatTimes (aDecryptRound k) r (startRounds (delta <<< 5) block)).sum = deltaTimes (32 - r) ∧
    (repeatTimes (bEncryptRound k) r (startRounds 0 block)).sum = deltaTimes r ∧
    (repeatTimes (bDecryptRound k) r (startRounds (delta <<< 5) block)).sum = deltaTimes (32 - r) ∧
    deltaTimes 32 = 0xC6EF3720#32 ∧ deltaTimes 0 = 0#32

/-- 41_cipher_a.md R108: the round trip of Cipher A, both ways. -/
def Obligations.CipherARoundTrip : Prop :=
  ∀ (k : Quad Word) (block : List Byte), block.length = 8 →
    aDecryptBlock k (aEncryptBlock k block) = block ∧
    aEncryptBlock k (aDecryptBlock k block) = block

/-- Equivalent keys of Cipher A (95_test_vectors.md section 2.1 (d); 93 U23): complementing bit 31 of
both `K[0]` and `K[1]`, or of both `K[2]` and `K[3]`, leaves every ciphertext unchanged. -/
def Obligations.EquivalentKeysOfCipherA : Prop :=
  ∀ (k0 k1 k2 k3 : Word) (block : List Byte),
    aEncryptBlock ⟨k0 ^^^ 0x80000000#32, k1 ^^^ 0x80000000#32, k2, k3⟩ block
      = aEncryptBlock ⟨k0, k1, k2, k3⟩ block ∧
    aEncryptBlock ⟨k0, k1, k2 ^^^ 0x80000000#32, k3 ^^^ 0x80000000#32⟩ block
      = aEncryptBlock ⟨k0, k1, k2, k3⟩ block

/-- 41_cipher_a.md R104: `A.CONSTRUCT`. -/
def Obligations.AConstructCommand : Prop :=
  ∀ (s : State) (keyAddr : Nat) (keyLen : Word),
    (keyLen ≠ 16#32 →
      exec (.aConstruct keyAddr keyLen) s = .next (s.answered .invalidKeySize keyLen)) ∧
    (keyLen = 16#32 → ¬InRange s.cfg keyAddr 16 →
      exec (.aConstruct keyAddr keyLen) s = .next (s.answered .addressRange 0)) ∧
    (keyLen = 16#32 → InRange s.cfg keyAddr 16 →
      exec (.aConstruct keyAddr keyLen) s = .next (({ s with
        a := { valid := true, k := keyWords (memReadKey s.mem keyAddr) } } : State).answered .ok 0))

/-- 41_cipher_a.md R105: `A.BLOCKSIZE`. -/
def Obligations.ABlocksizeCommand : Prop :=
  ∀ s : State,
    (s.a.valid = false → exec .aBlocksize s = .next (s.answered .noInstance 0)) ∧
    (s.a.valid = true → exec .aBlocksize s = .next { s.answered .ok 0 with result := some 8#32 })

/-- 41_cipher_a.md R106: `A.ENCRYPT`. -/
def Obligations.AEncryptCommand : Prop :=
  ∀ (s : State) (dst : Nat) (dstLen : Word) (src : Nat) (srcLen : Word),
    (s.a.valid = false →
      exec (.aEncrypt dst dstLen src srcLen) s = .next (s.answered .noInstance 0)) ∧
    (s.a.valid = true → srcLen ≠ 8#32 →
      exec (.aEncrypt dst dstLen src srcLen) s = .next (s.answered .bufferLength srcLen)) ∧
    (s.a.valid = true → srcLen = 8#32 → dstLen ≠ 8#32 →
      exec (.aEncrypt dst dstLen src srcLen) s = .next (s.answered .bufferLength dstLen)) ∧
    (s.a.valid = true → srcLen = 8#32 → dstLen = 8#32 → ¬InRange s.cfg src 8 →
      exec (.aEncrypt dst dstLen src srcLen) s = .next (s.answered .addressRange 1)) ∧
    (s.a.valid = true → srcLen = 8#32 → dstLen = 8#32 → InRange s.cfg src 8 →
      ¬InRange s.cfg dst 8 →
      exec (.aEncrypt dst dstLen src srcLen) s = .next (s.answered .addressRange 2)) ∧
    (s.a.valid = true → srcLen = 8#32 → dstLen = 8#32 → InRange s.cfg src 8 → InRange s.cfg dst 8 →
      exec (.aEncrypt dst dstLen src srcLen) s = .next (({ s with
        mem := memWrite s.mem dst (aEncryptBlock s.a.k (memRead s.mem src 8)) } : State).answered
          .ok 0))

/-- 41_cipher_a.md R107: `A.DECRYPT`. -/
def Obligations.ADecryptCommand : Prop :=
  ∀ (s : State) (dst : Nat) (dstLen : Word) (src : Nat) (srcLen : Word),
    (s.a.valid = false →
      exec (.aDecrypt dst dstLen src srcLen) s = .next (s.answered .noInstance 0)) ∧
    (s.a.valid = true → srcLen ≠ 8#32 →
      exec (.aDecrypt dst dstLen src srcLen) s = .next (s.answered .bufferLength srcLen)) ∧
    (s.a.valid = true → srcLen = 8#32 → dstLen ≠ 8#32 →
      exec (.aDecrypt dst dstLen src srcLen) s = .next (s.answered .bufferLength dstLen)) ∧
    (s.a.valid = true → srcLen = 8#32 → dstLen = 8#32 → ¬InRange s.cfg src 8 →
      exec (.aDecrypt dst dstLen src srcLen) s = .next (s.answered .addressRange 1)) ∧
    (s.a.valid = true → srcLen = 8#32 → dstLen = 8#32 → InRange s.cfg src 8 →
      ¬InRange s.cfg dst 8 →
      exec (.aDecrypt dst dstLen src srcLen) s = .next (s.answered .addressRange 2)) ∧
    (s.a.valid = true → srcLen = 8#32 → dstLen = 8#32 → InRange s.cfg src 8 → InRange s.cfg dst 8 →
      exec (.aDecrypt dst dstLen src srcLen) s = .next (({ s with
        mem := memWrite s.mem dst (aDecryptBlock s.a.k (memRead s.mem src 8)) } : State).answered
          .ok 0))

/-! ## Engine B -/

/-- 42_cipher_b.md R121: the two key indices, and the word each selects. -/
def Obligations.KeyIndicesOfB : Prop :=
  ∀ (k : Quad Word) (sum : Word),
    (idxLo sum).toNat = sum.toNat % 4 ∧ (idxHi sum).toNat = sum.toNat / 2 ^ 11 % 4 ∧
    k.toList[(idxLo sum).toNat]? = some (k.get (idxLo sum)) ∧
    k.toList[(idxHi sum).toNat]? = some (k.get (idxHi sum))

/-- 42_cipher_b.md R123 to R125: `FB` in the arithmetic of 00_scope.md R11, on numbers below 2^32; the 32
rounds of `b_encrypt`, `v0` with the `sum` before the increment and `v1` with the `sum` after it; and of
`b_decrypt`, the decrement between the two undos. -/
def Obligations.RoundsOfCipherB : Prop :=
  (∀ x : Word, (fB x).toNat
    = (((x.toNat * 16 % 2 ^ 32) ^^^ (x.toNat / 32)) + x.toNat) % 2 ^ 32) ∧
  (∀ (k : Quad Word) (block : List Byte), block.length = 8 → ∃ v0 v1 : Nat → Word,
    bytesToWords block = [v0 0, v1 0] ∧
    (∀ r, r < 32 →
      v0 (r + 1) = v0 r + (fB (v1 r) ^^^ (deltaTimes r + k.get (idxLo (deltaTimes r)))) ∧
      v1 (r + 1) = v1 r
        + (fB (v0 (r + 1)) ^^^ (deltaTimes (r + 1) + k.get (idxHi (deltaTimes (r + 1)))))) ∧
    bEncryptBlock k block = wordsToBytes [v0 32, v1 32]) ∧
  (∀ (k : Quad Word) (block : List Byte), block.length = 8 → ∃ v0 v1 : Nat → Word,
    bytesToWords block = [v0 0, v1 0] ∧
    (∀ j, j < 32 →
      v1 (j + 1) = v1 j - (fB (v0 j) ^^^ (deltaTimes (32 - j) + k.get (idxHi (deltaTimes (32 - j))))) ∧
      v0 (j + 1) = v0 j
        - (fB (v1 (j + 1)) ^^^ (deltaTimes (31 - j) + k.get (idxLo (deltaTimes (31 - j)))))) ∧
    bDecryptBlock k block = wordsToBytes [v0 32, v1 32]) ∧
  delta <<< 5 = deltaTimes 32 ∧ deltaTimes 32 = 0xC6EF3720#32 ∧ deltaTimes 0 = 0#32

/-- 42_cipher_b.md R130: the round trip of Cipher B, both ways. -/
def Obligations.CipherBRoundTrip : Prop :=
  ∀ (k : Quad Word) (block : List Byte), block.length = 8 →
    bDecryptBlock k (bEncryptBlock k block) = block ∧
    bEncryptBlock k (bDecryptBlock k block) = block

/-- 42_cipher_b.md R122: `B.CONSTRUCT`. -/
def Obligations.BConstructCommand : Prop :=
  ∀ (s : State) (keyAddr : Nat) (keyLen : Word),
    (keyLen ≠ 16#32 →
      exec (.bConstruct keyAddr keyLen) s = .next (s.answered .invalidKeySize keyLen)) ∧
    (keyLen = 16#32 → ¬InRange s.cfg keyAddr 16 →
      exec (.bConstruct keyAddr keyLen) s = .next (s.answered .addressRange 0)) ∧
    (keyLen = 16#32 → InRange s.cfg keyAddr 16 →
      exec (.bConstruct keyAddr keyLen) s = .next (({ s with
        b := { valid := true, wiped := false, kb := memReadKey s.mem keyAddr,
               k := keyWords (memReadKey s.mem keyAddr) } } : State).answered .ok 0))

/-- 42_cipher_b.md R126: `B.BLOCKSIZE`, also on a wiped instance. -/
def Obligations.BBlocksizeCommand : Prop :=
  ∀ s : State,
    (s.b.valid = false → exec .bBlocksize s = .next (s.answered .noInstance 0)) ∧
    (s.b.valid = true → exec .bBlocksize s = .next { s.answered .ok 0 with result := some 8#32 })

/-- 42_cipher_b.md R127: `B.ENCRYPT`. -/
def Obligations.BEncryptCommand : Prop :=
  ∀ (s : State) (dst : Nat) (dstLen : Word) (src : Nat) (srcLen : Word),
    (s.b.valid = false →
      exec (.bEncrypt dst dstLen src srcLen) s = .next (s.answered .noInstance 0)) ∧
    (s.b.valid = true → s.b.wiped = true →
      exec (.bEncrypt dst dstLen src srcLen) s = .next (s.answered .keyWiped 0)) ∧
    (s.b.valid = true → s.b.wiped = false → srcLen ≠ 8#32 →
      exec (.bEncrypt dst dstLen src srcLen) s = .next (s.answered .bufferLength srcLen)) ∧
    (s.b.valid = true → s.b.wiped = false → srcLen = 8#32 → dstLen ≠ 8#32 →
      exec (.bEncrypt dst dstLen src srcLen) s = .next (s.answered .bufferLength dstLen)) ∧
    (s.b.valid = true → s.b.wiped = false → srcLen = 8#32 → dstLen = 8#32 → ¬InRange s.cfg src 8 →
      exec (.bEncrypt dst dstLen src srcLen) s = .next (s.answered .addressRange 1)) ∧
    (s.b.valid = true → s.b.wiped = false → srcLen = 8#32 → dstLen = 8#32 → InRange s.cfg src 8 →
      ¬InRange s.cfg dst 8 →
      exec (.bEncrypt dst dstLen src srcLen) s = .next (s.answered .addressRange 2)) ∧
    (s.b.valid = true → s.b.wiped = false → srcLen = 8#32 → dstLen = 8#32 → InRange s.cfg src 8 →
      InRange s.cfg dst 8 →
      exec (.bEncrypt dst dstLen src srcLen) s = .next (({ s with
        mem := memWrite s.mem dst (bEncryptBlock s.b.k (memRead s.mem src 8)) } : State).answered
          .ok 0))

/-- 42_cipher_b.md R128: `B.DECRYPT`. -/
def Obligations.BDecryptCommand : Prop :=
  ∀ (s : State) (dst : Nat) (dstLen : Word) (src : Nat) (srcLen : Word),
    (s.b.valid = false →
      exec (.bDecrypt dst dstLen src srcLen) s = .next (s.answered .noInstance 0)) ∧
    (s.b.valid = true → s.b.wiped = true →
      exec (.bDecrypt dst dstLen src srcLen) s = .next (s.answered .keyWiped 0)) ∧
    (s.b.valid = true → s.b.wiped = false → srcLen ≠ 8#32 →
      exec (.bDecrypt dst dstLen src srcLen) s = .next (s.answered .bufferLength srcLen)) ∧
    (s.b.valid = true → s.b.wiped = false → srcLen = 8#32 → dstLen ≠ 8#32 →
      exec (.bDecrypt dst dstLen src srcLen) s = .next (s.answered .bufferLength dstLen)) ∧
    (s.b.valid = true → s.b.wiped = false → srcLen = 8#32 → dstLen = 8#32 → ¬InRange s.cfg src 8 →
      exec (.bDecrypt dst dstLen src srcLen) s = .next (s.answered .addressRange 1)) ∧
    (s.b.valid = true → s.b.wiped = false → srcLen = 8#32 → dstLen = 8#32 → InRange s.cfg src 8 →
      ¬InRange s.cfg dst 8 →
      exec (.bDecrypt dst dstLen src srcLen) s = .next (s.answered .addressRange 2)) ∧
    (s.b.valid = true → s.b.wiped = false → srcLen = 8#32 → dstLen = 8#32 → InRange s.cfg src 8 →
      InRange s.cfg dst 8 →
      exec (.bDecrypt dst dstLen src srcLen) s = .next (({ s with
        mem := memWrite s.mem dst (bDecryptBlock s.b.k (memRead s.mem src 8)) } : State).answered
          .ok 0))

/-- 42_cipher_b.md R129: `B.WIPE`: zeros in the sixteen key bytes and the four key words, `B.wiped` 1,
`B.valid` and `M` kept; on an already wiped instance the same. -/
def Obligations.BWipeCommand : Prop :=
  ∀ s : State,
    (s.b.valid = false → exec .bWipe s = .next (s.answered .noInstance 0)) ∧
    (s.b.valid = true → exec .bWipe s = .next (({ s with
      b := { valid := true, wiped := true, kb := zeroKey, k := ⟨0, 0, 0, 0⟩ } } : State).answered
        .ok 0)) ∧
    (∀ j, j < 16 → (zeroKey.toList.map Quad.toList).flatten[j]? = some 0)

/-! ## Engine C -/

/-- 43_cipher_c.md R141: `q = 6 + floor(52 / n)` and the table of its values. -/
def Obligations.RoundCountOfC : Prop :=
  (∀ n, 2 ≤ n → roundsC n = 6 + 52 / n) ∧
  [2, 3, 4, 5, 6, 7, 8, 13, 16, 17, 26].map roundsC = [32, 23, 19, 16, 14, 13, 12, 10, 9, 9, 8] ∧
  (∀ n, 27 ≤ n → n ≤ 52 → roundsC n = 7) ∧ (∀ n, 53 ≤ n → roundsC n = 6)

/-- 43_cipher_c.md R142: `mx` in the arithmetic of 00_scope.md R11, on numbers below 2^32, with the key
word at index `(p & 3) ^ e`. -/
def Obligations.MixingFunctionInNumbers : Prop :=
  ∀ (k : Quad Word) (v0 v1 sum kw : Word) (p : Nat) (e : BitVec 2),
    k.toList[(p % 4) ^^^ e.toNat]? = some kw →
    (mx k v0 v1 sum p e).toNat
      = ((((v1.toNat / 32) ^^^ (v0.toNat * 4 % 2 ^ 32))
          + ((v0.toNat / 8) ^^^ (v1.toNat * 16 % 2 ^ 32))) % 2 ^ 32)
        ^^^ (((sum.toNat ^^^ v0.toNat) + (kw.toNat ^^^ v1.toNat)) % 2 ^ 32)

/-- 43_cipher_c.md R143 to R145, word by word. `e = (sum >> 2) & 3`, bits 3:2 of the round's `sum`, the same
for every word of the round. Encrypting, `sum = r * DELTA`; the word to the right is not yet updated this
round, except that `W[n-1]` sees the new `W[0]`; the word to the left is already updated, except that
`W[0]` sees the `W[n-1]` of the round before. Decrypting, from `sum = q * DELTA` down to `DELTA`, the
same neighbours with the roles of old and new exchanged. -/
def Obligations.RoundsOfCipherC : Prop :=
  (∀ sum : Word, (roundIndex sum).toNat = sum.toNat / 4 % 4) ∧
  (∀ (k : Quad Word) (n : Nat) (block : List Byte), 2 ≤ n → block.length = 4 * n →
    ∃ w : Nat → Nat → Word, bytesToWords block = (List.range n).map (w 0) ∧
    (∀ r p, r < roundsC n → p < n →
      w (r + 1) p = w r p + mx k (if p + 1 = n then w (r + 1) 0 else w r (p + 1))
        (if p = 0 then w r (n - 1) else w (r + 1) (p - 1)) (deltaTimes (r + 1)) p
        (roundIndex (deltaTimes (r + 1)))) ∧
    cEncryptBlock k n block = wordsToBytes ((List.range n).map (w (roundsC n)))) ∧
  (∀ (k : Quad Word) (n : Nat) (block : List Byte), 2 ≤ n → block.length = 4 * n →
    ∃ w : Nat → Nat → Word, bytesToWords block = (List.range n).map (w 0) ∧
    (∀ j p, j < roundsC n → p < n →
      w (j + 1) p = w j p - mx k (if p + 1 = n then w j 0 else w (j + 1) (p + 1))
        (if p = 0 then w (j + 1) (n - 1) else w j (p - 1)) (deltaTimes (roundsC n - j)) p
        (roundIndex (deltaTimes (roundsC n - j)))) ∧
    cDecryptBlock k n block = wordsToBytes ((List.range n).map (w (roundsC n)))) ∧
  [2, 3, 4, 8, 16, 52, 53].map (fun n => deltaTimes (roundsC n)) = [0xC6EF3720, 0x36FBEF9F, 0xBE1E08BB,
    0x6A99B4AC, 0x8FF34781, 0x5384540F, 0xB54CDA56]

/-- 43_cipher_c.md R151: the round trip of Cipher C, both ways, for every n from 2 up, odd n included. -/
def Obligations.CipherCRoundTrip : Prop :=
  ∀ (k : Quad Word) (n : Nat) (block : List Byte), 2 ≤ n → block.length = 4 * n →
    cDecryptBlock k n (cEncryptBlock k n block) = block ∧
    cEncryptBlock k n (cDecryptBlock k n block) = block

/-- 43_cipher_c.md R150: the carried-variable form and the index form compute the same function, in both
directions, for every n from 2 up. -/
def Obligations.CarriedFormEqualsIndexForm : Prop :=
  ∀ (k : Quad Word) (n : Nat) (block : List Byte), 2 ≤ n → block.length = 4 * n →
    carriedEncryptBlock k n block = cEncryptBlock k n block ∧
    carriedDecryptBlock k n block = cDecryptBlock k n block

/-- 43_cipher_c.md R146: `C.CONSTRUCT`. -/
def Obligations.CConstructCommand : Prop :=
  ∀ (s : State) (keyAddr : Nat) (keyLen blockSize : Word),
    (keyLen ≠ 16#32 →
      exec (.cConstruct keyAddr keyLen blockSize) s = .next (s.answered .invalidKeySize keyLen)) ∧
    (keyLen = 16#32 →
      blockSize.toNat < 8 ∨ blockSize.toNat % 4 ≠ 0 ∨ s.cfg.nmax < blockSize.toNat / 4 →
      exec (.cConstruct keyAddr keyLen blockSize) s = .next (s.answered .blockSize blockSize)) ∧
    (keyLen = 16#32 → 8 ≤ blockSize.toNat → blockSize.toNat % 4 = 0 →
      blockSize.toNat / 4 ≤ s.cfg.nmax → ¬InRange s.cfg keyAddr 16 →
      exec (.cConstruct keyAddr keyLen blockSize) s = .next (s.answered .addressRange 0)) ∧
    (keyLen = 16#32 → 8 ≤ blockSize.toNat → blockSize.toNat % 4 = 0 →
      blockSize.toNat / 4 ≤ s.cfg.nmax → InRange s.cfg keyAddr 16 →
      exec (.cConstruct keyAddr keyLen blockSize) s = .next (({ s with
        c := { valid := true, k := keyWords (memReadKey s.mem keyAddr), bs := blockSize }
        } : State).answered .ok 0))

/-- 43_cipher_c.md R147: `C.BLOCKSIZE`. -/
def Obligations.CBlocksizeCommand : Prop :=
  ∀ s : State,
    (s.c.valid = false → exec .cBlocksize s = .next (s.answered .noInstance 0)) ∧
    (s.c.valid = true → exec .cBlocksize s = .next { s.answered .ok 0 with result := some s.c.bs })

/-- 43_cipher_c.md R148: `C.ENCRYPT`. -/
def Obligations.CEncryptCommand : Prop :=
  ∀ (s : State) (dst : Nat) (dstLen : Word) (src : Nat) (srcLen : Word),
    (s.c.valid = false →
      exec (.cEncrypt dst dstLen src srcLen) s = .next (s.answered .noInstance 0)) ∧
    (s.c.valid = true → srcLen ≠ s.c.bs →
      exec (.cEncrypt dst dstLen src srcLen) s = .next (s.answered .bufferLength srcLen)) ∧
    (s.c.valid = true → srcLen = s.c.bs → dstLen ≠ s.c.bs →
      exec (.cEncrypt dst dstLen src srcLen) s = .next (s.answered .bufferLength dstLen)) ∧
    (s.c.valid = true → srcLen = s.c.bs → dstLen = s.c.bs → ¬InRange s.cfg src s.c.bs.toNat →
      exec (.cEncrypt dst dstLen src srcLen) s = .next (s.answered .addressRange 1)) ∧
    (s.c.valid = true → srcLen = s.c.bs → dstLen = s.c.bs → InRange s.cfg src s.c.bs.toNat →
      ¬InRange s.cfg dst s.c.bs.toNat →
      exec (.cEncrypt dst dstLen src srcLen) s = .next (s.answered .addressRange 2)) ∧
    (s.c.valid = true → srcLen = s.c.bs → dstLen = s.c.bs → InRange s.cfg src s.c.bs.toNat →
      InRange s.cfg dst s.c.bs.toNat →
      exec (.cEncrypt dst dstLen src srcLen) s = .next (({ s with
        mem := memWrite s.mem dst (cEncryptBlock s.c.k (s.c.bs.toNat / 4)
          (memRead s.mem src s.c.bs.toNat)) } : State).answered .ok 0))

/-- 43_cipher_c.md R149: `C.DECRYPT`. -/
def Obligations.CDecryptCommand : Prop :=
  ∀ (s : State) (dst : Nat) (dstLen : Word) (src : Nat) (srcLen : Word),
    (s.c.valid = false →
      exec (.cDecrypt dst dstLen src srcLen) s = .next (s.answered .noInstance 0)) ∧
    (s.c.valid = true → srcLen ≠ s.c.bs →
      exec (.cDecrypt dst dstLen src srcLen) s = .next (s.answered .bufferLength srcLen)) ∧
    (s.c.valid = true → srcLen = s.c.bs → dstLen ≠ s.c.bs →
      exec (.cDecrypt dst dstLen src srcLen) s = .next (s.answered .bufferLength dstLen)) ∧
    (s.c.valid = true → srcLen = s.c.bs → dstLen = s.c.bs → ¬InRange s.cfg src s.c.bs.toNat →
      exec (.cDecrypt dst dstLen src srcLen) s = .next (s.answered .addressRange 1)) ∧
    (s.c.valid = true → srcLen = s.c.bs → dstLen = s.c.bs → InRange s.cfg src s.c.bs.toNat →
      ¬InRange s.cfg dst s.c.bs.toNat →
      exec (.cDecrypt dst dstLen src srcLen) s = .next (s.answered .addressRange 2)) ∧
    (s.c.valid = true → srcLen = s.c.bs → dstLen = s.c.bs → InRange s.cfg src s.c.bs.toNat →
      InRange s.cfg dst s.c.bs.toNat →
      exec (.cDecrypt dst dstLen src srcLen) s = .next (({ s with
        mem := memWrite s.mem dst (cDecryptBlock s.c.k (s.c.bs.toNat / 4)
          (memRead s.mem src s.c.bs.toNat)) } : State).answered .ok 0))

/-! ## The whole machine -/

/-- The invariant holds at reset: 10_state.md R23, R24, memory in its canonical form and inside the
address space, `INFO` 0 beside `OK`. -/
def Obligations.InvariantHoldsAtReset : Prop := State.reset.inv = true

/-- Every step of the machine, whatever the host does, keeps the invariant: `B.K` agrees with `B.KB`
(10_state.md R23), `C.BS` is legal while `C.valid = 1` (R24), a wiped engine B and an engine without an
instance hold zeros, `INFO` is 0 beside `OK` (R29), the result ports have values only beside `OK`
(30_encoding.md R75), and memory stays canonical (the form is the model's, notes/assumptions/1.md) and
inside the address space. -/
def Obligations.StepKeepsInvariant : Prop :=
  ∀ s t : State, s.inv = true → step s = .next t → t.inv = true

/-- 60_exceptions.md R178: a command that ends with a status other than `OK` changes `STATUS` and `INFO`
and nothing else: no engine register, no flag, no byte of `M`. -/
def Obligations.RefusedCommandChangesOnlyStatus : Prop :=
  ∀ (i : Instr) (s t : State), exec i s = .next t → t.status ≠ .ok →
    t = s.answered t.status t.info

/-- The eight status codes of 60_exceptions.md R170. Once accepted, a command always completes (R184),
with one of them and with `INFO` 0 if it is `OK` (R29); the model's own fields are neither written nor,
for `pending`, read (notes/assumptions/2.md, 4.md, 11.md). -/
def Obligations.EveryCommandCompletes : Prop :=
  [Status.ok, .invalidKeySize, .illegalCommand, .noInstance, .keyWiped, .bufferLength, .blockSize,
    .addressRange].map Status.code
    = [0x00#8, 0x01#8, 0x02#8, 0x03#8, 0x04#8, 0x05#8, 0x06#8, 0x07#8] ∧
  ∀ (i : Instr) (s : State), ∃ t, exec i s = .next t ∧ t.status.code.toNat ≤ 7 ∧
    (t.status = .ok → t.info = 0) ∧ t.pending = s.pending ∧ t.cfg = s.cfg ∧ t.tick = s.tick ∧
    ∀ events, exec i { s with pending := events } = .next { t with pending := events }

/-- 10_state.md R21: engine isolation. A command whose code selects one unit writes no register of the
other engines, and what those registers hold makes no difference to anything it does. -/
def Obligations.EnginesAreIsolated : Prop :=
  ∀ (i : Instr) (s t : State), exec i s = .next t →
    (codeUnit i.code ≠ 1#2 →
      t.a = s.a ∧ ∀ a', exec i { s with a := a' } = .next { t with a := a' }) ∧
    (codeUnit i.code ≠ 2#2 →
      t.b = s.b ∧ ∀ b', exec i { s with b := b' } = .next { t with b := b' }) ∧
    (codeUnit i.code ≠ 3#2 →
      t.c = s.c ∧ ∀ c', exec i { s with c := c' } = .next { t with c := c' })

/-- `STATUS`, `INFO` and the result ports are read by no command (10_state.md R29): no command's behaviour
depends on the previous command's completion. -/
def Obligations.PreviousCompletionIsNeverRead : Prop :=
  ∀ (i : Instr) (s : State) (status : Status) (info : Word) (result : Option Word)
    (wordsOut : Option (List Word)),
    exec i { s with status := status, info := info, result := result, wordsOut := wordsOut }
      = exec i s

/-- 10_state.md R32: the only writers of an engine's registers are the engine's own `CONSTRUCT`, `B.WIPE`
and reset. Whatever the host does otherwise, a step leaves every register and flag of the engine as it
was. -/
def Obligations.OnlyConstructWipeAndResetWriteEngines : Prop :=
  ∀ (s t : State), step s = .next t →
    (∀ rest, s.pending ≠ .reset :: rest) → (∀ c rest, s.pending ≠ .resetDuring c :: rest) →
    ((∀ c rest keyAddr keyLen, s.pending = .command c :: rest →
        decode s.cfg c ≠ .ok (.aConstruct keyAddr keyLen)) → t.a = s.a) ∧
    ((∀ c rest keyAddr keyLen, s.pending = .command c :: rest →
        decode s.cfg c ≠ .ok (.bConstruct keyAddr keyLen) ∧ decode s.cfg c ≠ .ok .bWipe) → t.b = s.b) ∧
    ((∀ c rest keyAddr keyLen blockSize, s.pending = .command c :: rest →
        decode s.cfg c ≠ .ok (.cConstruct keyAddr keyLen blockSize)) → t.c = s.c)

/-- 20_memory.md R51: a command writes no byte of `M` but those of its destination, and none when it ends
with a status other than `OK`; `CONSTRUCT`, `*.BLOCKSIZE`, `B.WIPE` and `CDC.B2W` write none. -/
def Obligations.CommandsWriteOnlyTheirDestination : Prop :=
  ∀ (i : Instr) (s t : State), s.inv = true → exec i s = .next t →
    (∀ x, ¬(t.status = .ok ∧ (destination s i).1 ≤ x ∧
        x < (destination s i).1 + (destination s i).2) →
      t.mem.read x = s.mem.read x) ∧
    (writesEngine i = true ∨ codeOp i.code = 1#4 ∧ codeUnit i.code ≠ 0#2 ∨ i.code = 0x00#8 →
      t.mem = s.mem)

/-- No command returns key material (00_scope.md R17, 30_encoding.md R75): changing the key bytes and
words of every engine changes nothing the host sees on the registers and ports. -/
def Obligations.KeysAreNotObservableOnThePorts : Prop :=
  ∀ (i : Instr) (s t : State) (ka kb kc : Quad Word) (kbytes : Quad (Quad Byte)),
    exec i s = .next t →
    ∃ u, exec i { s with a := { s.a with k := ka }, b := { s.b with k := kb, kb := kbytes },
                         c := { s.c with k := kc } } = .next u ∧ u.observe = t.observe

/-- The transforms depend only on the engine's key words (and `C.BS`) and the source block: two
executions that agree on those and complete with `OK` leave the same bytes at their destinations,
wherever the buffers lie and whatever else the states hold (41_cipher_a.md R109, 42_cipher_b.md R131,
43_cipher_c.md R152). -/
def Obligations.TransformsDependOnlyOnKeyAndBlock : Prop :=
  ∀ (s s' t t' : State) (d d' a a' : Nat) (dl dl' al al' : Word),
    t.status = .ok → t'.status = .ok →
    (s.a.k = s'.a.k → memRead s.mem a 8 = memRead s'.mem a' 8 →
      (exec (.aEncrypt d dl a al) s = .next t → exec (.aEncrypt d' dl' a' al') s' = .next t' →
        memRead t.mem d 8 = memRead t'.mem d' 8) ∧
      (exec (.aDecrypt d dl a al) s = .next t → exec (.aDecrypt d' dl' a' al') s' = .next t' →
        memRead t.mem d 8 = memRead t'.mem d' 8)) ∧
    (s.b.k = s'.b.k → memRead s.mem a 8 = memRead s'.mem a' 8 →
      (exec (.bEncrypt d dl a al) s = .next t → exec (.bEncrypt d' dl' a' al') s' = .next t' →
        memRead t.mem d 8 = memRead t'.mem d' 8) ∧
      (exec (.bDecrypt d dl a al) s = .next t → exec (.bDecrypt d' dl' a' al') s' = .next t' →
        memRead t.mem d 8 = memRead t'.mem d' 8)) ∧
    (s.inv = true → s.c.k = s'.c.k → s.c.bs = s'.c.bs →
      memRead s.mem a s.c.bs.toNat = memRead s'.mem a' s.c.bs.toNat →
      (exec (.cEncrypt d dl a al) s = .next t → exec (.cEncrypt d' dl' a' al') s' = .next t' →
        memRead t.mem d s.c.bs.toNat = memRead t'.mem d' s.c.bs.toNat) ∧
      (exec (.cDecrypt d dl a al) s = .next t → exec (.cDecrypt d' dl' a' al') s' = .next t' →
        memRead t.mem d s.c.bs.toNat = memRead t'.mem d' s.c.bs.toNat))

/-- `B.KB` is read by no transform and no query (42_cipher_b.md R131: "They read `B.K`, never `B.KB`"):
other bytes there change nothing such a command does, and stay. -/
def Obligations.RawKeyBytesAreNeverRead : Prop :=
  ∀ (i : Instr) (s t : State) (kb : Quad (Quad Byte)), writesEngine i = false → exec i s = .next t →
    exec i { s with b := { s.b with kb := kb } } = .next { t with b := { t.b with kb := kb } }

/-- 20_memory.md R58: every read of the source is before any write of the destination, so a transform
leaves at its destination the whole transformed source block however the two buffers overlap, in place
included, and nothing else changes. -/
def Obligations.TransformReadsWholeSourceFirst : Prop :=
  ∀ (s t : State) (d a : Nat) (dl al : Word), s.inv = true → t.status = .ok →
    (exec (.aEncrypt d dl a al) s = .next t →
      memRead t.mem d 8 = aEncryptBlock s.a.k (memRead s.mem a 8)) ∧
    (exec (.aDecrypt d dl a al) s = .next t →
      memRead t.mem d 8 = aDecryptBlock s.a.k (memRead s.mem a 8)) ∧
    (exec (.bEncrypt d dl a al) s = .next t →
      memRead t.mem d 8 = bEncryptBlock s.b.k (memRead s.mem a 8)) ∧
    (exec (.bDecrypt d dl a al) s = .next t →
      memRead t.mem d 8 = bDecryptBlock s.b.k (memRead s.mem a 8)) ∧
    (exec (.cEncrypt d dl a al) s = .next t →
      memRead t.mem d s.c.bs.toNat
        = cEncryptBlock s.c.k (s.c.bs.toNat / 4) (memRead s.mem a s.c.bs.toNat)) ∧
    (exec (.cDecrypt d dl a al) s = .next t →
      memRead t.mem d s.c.bs.toNat
        = cDecryptBlock s.c.k (s.c.bs.toNat / 4) (memRead s.mem a s.c.bs.toNat))

/-- Encrypting a block to a second buffer and decrypting from there into a third gives the block back,
on the machine, for all three engines and every placement of the three buffers (41_cipher_a.md R108,
42_cipher_b.md R130, 43_cipher_c.md R151 with 20_memory.md R58). -/
def Obligations.DecryptCommandUndoesEncryptCommand : Prop :=
  ∀ (s t u : State) (d d' a : Nat) (dl dl' al al' : Word), s.inv = true →
    t.status = .ok → u.status = .ok →
    (exec (.aEncrypt d dl a al) s = .next t → exec (.aDecrypt d' dl' d al') t = .next u →
      memRead u.mem d' 8 = memRead s.mem a 8) ∧
    (exec (.bEncrypt d dl a al) s = .next t → exec (.bDecrypt d' dl' d al') t = .next u →
      memRead u.mem d' 8 = memRead s.mem a 8) ∧
    (exec (.cEncrypt d dl a al) s = .next t → exec (.cDecrypt d' dl' d al') t = .next u →
      memRead u.mem d' s.c.bs.toNat = memRead s.mem a s.c.bs.toNat)

/-- 20_memory.md R65: issuing `BLOCKSIZE`, a codec command, `B.WIPE` or `CONSTRUCT` a second time gives
the same state and result; `ENCRYPT` and `DECRYPT` do when the destination does not overlap the source.
In place, the second transforms the output of the first. -/
def Obligations.CommandsIssuedTwiceGiveTheSame : Prop :=
  (∀ (i : Instr) (s t : State), s.inv = true → exec i s = .next t →
    (i.format ≠ .x → exec i t = .next t)) ∧
  (∀ (i : Instr) (d a : Nat) (dl al : Word) (s t : State), s.inv = true → exec i s = .next t →
    i ∈ [Instr.aEncrypt d dl a al, .aDecrypt d dl a al, .bEncrypt d dl a al, .bDecrypt d dl a al,
      .cEncrypt d dl a al, .cDecrypt d dl a al] →
    disjointBuffers a (destination s i).2 d (destination s i).2 → exec i t = .next t) ∧
  (∀ (a : Nat) (l : Word) (s t u : State), s.inv = true → t.status = .ok →
    (exec (.aEncrypt a l a l) s = .next t → exec (.aEncrypt a l a l) t = .next u →
      memRead u.mem a 8 = aEncryptBlock s.a.k (aEncryptBlock s.a.k (memRead s.mem a 8))) ∧
    (exec (.aDecrypt a l a l) s = .next t → exec (.aDecrypt a l a l) t = .next u →
      memRead u.mem a 8 = aDecryptBlock s.a.k (aDecryptBlock s.a.k (memRead s.mem a 8))) ∧
    (exec (.bEncrypt a l a l) s = .next t → exec (.bEncrypt a l a l) t = .next u →
      memRead u.mem a 8 = bEncryptBlock s.b.k (bEncryptBlock s.b.k (memRead s.mem a 8))) ∧
    (exec (.bDecrypt a l a l) s = .next t → exec (.bDecrypt a l a l) t = .next u →
      memRead u.mem a 8 = bDecryptBlock s.b.k (bDecryptBlock s.b.k (memRead s.mem a 8))) ∧
    (exec (.cEncrypt a l a l) s = .next t → exec (.cEncrypt a l a l) t = .next u →
      memRead u.mem a s.c.bs.toNat = cEncryptBlock s.c.k (s.c.bs.toNat / 4)
        (cEncryptBlock s.c.k (s.c.bs.toNat / 4) (memRead s.mem a s.c.bs.toNat))) ∧
    (exec (.cDecrypt a l a l) s = .next t → exec (.cDecrypt a l a l) t = .next u →
      memRead u.mem a s.c.bs.toNat = cDecryptBlock s.c.k (s.c.bs.toNat / 4)
        (cDecryptBlock s.c.k (s.c.bs.toNat / 4) (memRead s.mem a s.c.bs.toNat))))
end

