-- ==== Sys2Proof/Laws/Assembler.lean ====
section
/-! SUPPORT. What the operands of a listing line put on the ports, and when a line stands for no command. -/

namespace Sys2Proof.Machine

@[simp] theorem linePorts_nil : linePorts [] = some [] := rfl

@[simp] theorem linePorts_cons (op : AsmOperand) (rest : List AsmOperand) :
    linePorts (op :: rest) = op.ports.bind fun ps => (linePorts rest).map fun qs => ps ++ qs := rfl

/-- A line on which an operand stands for no port puts nothing on the ports. -/
theorem linePorts_eq_none {ops : List AsmOperand} {op : AsmOperand} (h : op ∈ ops)
    (hp : op.ports = none) : linePorts ops = none := by
  induction ops with
  | nil => cases h
  | cons first rest ih =>
    rcases List.mem_cons.mp h with rfl | h
    · simp [hp]
    · simp [ih h]

/-- A `buf` on a line that is no pseudo-command makes it a line of no command (notes/assumptions/15.md). -/
theorem assemble_surplus_buf {cfg : Config} {line : AsmLine} {addr len : Nat}
    (h : pseudoBase line.mnemonic = none) (hb : .buffer .buf addr len ∈ line.operands) :
    assemble cfg line = none := by
  have hl : expandPseudo line = line := by simp [expandPseudo, h]
  simp [assemble, hl, linePorts_eq_none hb rfl]

end Sys2Proof.Machine
end

