-- ==== Sys2Proof/Laws/Memory.lean ====
section
/-! SUPPORT. The buffer memory (20_memory.md R52, R53): what a read gives after a write, that every
operation keeps the canonical form, and that memories in that form with equal contents are equal. -/

namespace Sys2Proof.Machine

@[simp] theorem lookup_nil (a : Nat) : Memory.lookup [] a = none := rfl

theorem lookup_cons (x : Nat) (y : Byte) (m : Memory) (a : Nat) :
    Memory.lookup ((x, y) :: m) a = if a = x then some y else Memory.lookup m a := rfl

/-- One byte written: it is what its address holds, and no other address is touched. -/
theorem lookup_write (m : Memory) (a x : Nat) (b : Byte) :
    Memory.lookup (m.write a b) x = if x = a then some b else Memory.lookup m x := by
  induction m with
  | nil => rfl
  | cons cell rest ih =>
    obtain ⟨k, v⟩ := cell
    unfold Memory.write
    split
    · rw [lookup_cons]
    · split
      · subst k; rw [lookup_cons, lookup_cons]; split <;> rfl
      · rename_i h1 h2
        rw [lookup_cons, lookup_cons, ih]
        split
        · split
          · omega
          · rfl
        · rfl

theorem read_write (m : Memory) (a x : Nat) (b : Byte) :
    (m.write a b).read x = if x = a then b else m.read x := by
  unfold Memory.read
  rw [lookup_write]
  split <;> simp

theorem risingFrom_mono {m : Memory} {lo lo' : Nat} (h : lo ≤ lo')
    (hm : Memory.risingFrom lo' m = true) : Memory.risingFrom lo m = true := by
  cases m with
  | nil => rfl
  | cons cell rest =>
    simp only [Memory.risingFrom, Bool.and_eq_true, decide_eq_true_eq] at hm ⊢
    exact ⟨by omega, hm.2⟩

theorem risingFrom_write {m : Memory} {lo a : Nat} (b : Byte) (ha : lo ≤ a)
    (hm : Memory.risingFrom lo m = true) : Memory.risingFrom lo (m.write a b) = true := by
  induction m generalizing lo with
  | nil => simp [Memory.write, Memory.risingFrom, ha]
  | cons cell rest ih =>
    obtain ⟨k, v⟩ := cell
    simp only [Memory.risingFrom, Bool.and_eq_true, decide_eq_true_eq] at hm
    unfold Memory.write
    split
    · simp only [Memory.risingFrom, Bool.and_eq_true, decide_eq_true_eq]
      exact ⟨ha, by omega, hm.2⟩
    · split
      · simp only [Memory.risingFrom, Bool.and_eq_true, decide_eq_true_eq]
        subst k; exact ⟨ha, hm.2⟩
      · simp only [Memory.risingFrom, Bool.and_eq_true, decide_eq_true_eq]
        exact ⟨hm.1, ih (by omega) hm.2⟩

/-- A write keeps the canonical form. -/
theorem write_wf {m : Memory} (a : Nat) (b : Byte) (hm : m.wf = true) : (m.write a b).wf = true :=
  risingFrom_write b (Nat.zero_le a) hm

theorem memWrite_wf {m : Memory} (a : Nat) (bs : List Byte) (hm : m.wf = true) :
    (memWrite m a bs).wf = true := by
  induction bs generalizing m a with
  | nil => exact hm
  | cons b rest ih => exact ih (a + 1) (write_wf a b hm)

theorem write_within {m : Memory} {cfg : Config} {a : Nat} (b : Byte) (ha : cfg.addrFits a = true)
    (hm : m.within cfg = true) : (m.write a b).within cfg = true := by
  induction m with
  | nil => simp [Memory.write, Memory.within, ha]
  | cons cell rest ih =>
    obtain ⟨k, v⟩ := cell
    simp only [Memory.within, List.all_cons, Bool.and_eq_true] at hm ih ⊢
    unfold Memory.write
    split
    · simp only [List.all_cons, Bool.and_eq_true]; exact ⟨ha, hm.1, hm.2⟩
    · split
      · simp only [List.all_cons, Bool.and_eq_true]; exact ⟨ha, hm.2⟩
      · simp only [List.all_cons, Bool.and_eq_true]; exact ⟨hm.1, ih hm.2⟩

theorem memWrite_within {m : Memory} {cfg : Config} {a : Nat} {bs : List Byte}
    (h : a + bs.length ≤ 2 ^ cfg.xaddr) (hm : m.within cfg = true) :
    (memWrite m a bs).within cfg = true := by
  induction bs generalizing m a with
  | nil => exact hm
  | cons b rest ih =>
    simp only [List.length_cons] at h
    exact ih (by omega) (write_within b (by simp [Config.addrFits]; omega) hm)

/-- `MemWrite`: byte `i` of the bytes at `a + i`, every other address as before. -/
theorem lookup_memWrite (m : Memory) (a x : Nat) (bs : List Byte) :
    Memory.lookup (memWrite m a bs) x
      = if a ≤ x ∧ x < a + bs.length then bs[x - a]? else Memory.lookup m x := by
  induction bs generalizing m a with
  | nil => rw [if_neg (by simp)]; rfl
  | cons b rest ih =>
    rw [show memWrite m a (b :: rest) = memWrite (m.write a b) (a + 1) rest from rfl, ih, lookup_write]
    simp only [List.length_cons]
    by_cases h1 : x = a
    · subst h1
      rw [if_neg (by omega), if_pos rfl, if_pos (by omega)]
      simp
    · by_cases h2 : a ≤ x ∧ x < a + (rest.length + 1)
      · rw [if_pos (by omega), if_pos h2, show x - a = (x - (a + 1)) + 1 from by omega]
        rfl
      · rw [if_neg (by omega), if_neg h1, if_neg h2]

theorem read_memWrite_outside {m : Memory} {a x : Nat} {bs : List Byte}
    (h : ¬(a ≤ x ∧ x < a + bs.length)) : (memWrite m a bs).read x = m.read x := by
  unfold Memory.read
  rw [lookup_memWrite, if_neg h]

theorem read_memWrite_inside {m : Memory} {a i : Nat} {bs : List Byte} (h : i < bs.length) :
    (memWrite m a bs).read (a + i) = bs[i] := by
  unfold Memory.read
  rw [lookup_memWrite, if_pos (by omega), show a + i - a = i from by omega]
  simp [h]

@[simp] theorem length_memRead (m : Memory) (a len : Nat) : (memRead m a len).length = len := by
  induction len generalizing a with
  | zero => rfl
  | succ n ih => simp [memRead, ih]

/-- `MemRead`: byte `i` is `M[a + i]`. -/
theorem getElem_memRead {m : Memory} {a len i : Nat} (h : i < (memRead m a len).length) :
    (memRead m a len)[i] = m.read (a + i) := by
  induction len generalizing a i with
  | zero => simp at h
  | succ n ih =>
    cases i with
    | zero => rfl
    | succ j =>
      simp only [memRead, List.getElem_cons_succ]
      rw [ih]
      congr 1
      omega

/-- Two memories that hold the same bytes at `a .. a+len-1` give the same `MemRead`. -/
theorem memRead_congr {m m' : Memory} {a len : Nat}
    (h : ∀ i, i < len → m.read (a + i) = m'.read (a + i)) : memRead m a len = memRead m' a len := by
  apply List.ext_getElem
  · simp
  · intro i h1 h2
    rw [getElem_memRead, getElem_memRead]
    exact h i (by simpa using h1)

theorem memRead_memWrite_same (m : Memory) (a : Nat) (bs : List Byte) :
    memRead (memWrite m a bs) a bs.length = bs := by
  apply List.ext_getElem
  · simp
  · intro i h1 h2
    rw [getElem_memRead, read_memWrite_inside h2]

theorem memRead_memWrite_disjoint {m : Memory} {a len d : Nat} {bs : List Byte}
    (h : disjointBuffers a len d bs.length) : memRead (memWrite m d bs) a len = memRead m a len := by
  apply memRead_congr
  intro i hi
  apply read_memWrite_outside
  unfold disjointBuffers at h
  omega

theorem lookup_lt_of_risingFrom {m : Memory} {lo x : Nat} (hm : Memory.risingFrom lo m = true)
    (hx : x < lo) : Memory.lookup m x = none := by
  induction m generalizing lo with
  | nil => rfl
  | cons cell rest ih =>
    obtain ⟨k, v⟩ := cell
    simp only [Memory.risingFrom, Bool.and_eq_true, decide_eq_true_eq] at hm
    rw [lookup_cons, if_neg (by omega)]
    exact ih hm.2 (by omega)

theorem eq_of_lookup_risingFrom {m m' : Memory} {lo lo' : Nat} (hm : Memory.risingFrom lo m = true)
    (hm' : Memory.risingFrom lo' m' = true) (h : ∀ x, Memory.lookup m x = Memory.lookup m' x) :
    m = m' := by
  induction m generalizing m' lo lo' with
  | nil =>
    cases m' with
    | nil => rfl
    | cons cell rest => have := h cell.1; simp [Memory.lookup] at this
  | cons cell rest ih =>
    obtain ⟨k, v⟩ := cell
    cases m' with
    | nil => have := h k; simp [Memory.lookup] at this
    | cons cell' rest' =>
      obtain ⟨k', v'⟩ := cell'
      simp only [Memory.risingFrom, Bool.and_eq_true, decide_eq_true_eq] at hm hm'
      have hk : k = k' := by
        rcases Nat.lt_trichotomy k k' with hlt | heq | hgt
        · have := h k
          rw [lookup_cons, if_pos rfl, lookup_cons, if_neg (by omega),
            lookup_lt_of_risingFrom hm'.2 (by omega)] at this
          simp at this
        · exact heq
        · have := h k'
          rw [lookup_cons, if_neg (by omega), lookup_cons, if_pos rfl,
            lookup_lt_of_risingFrom hm.2 (by omega)] at this
          simp at this
      subst hk
      have hv := h k
      rw [lookup_cons, lookup_cons, if_pos rfl, if_pos rfl] at hv
      have hrest : rest = rest' := by
        apply ih hm.2 hm'.2
        intro x
        by_cases hx : x = k
        · subst hx
          rw [lookup_lt_of_risingFrom hm.2 (by omega), lookup_lt_of_risingFrom hm'.2 (by omega)]
        · have := h x
          rwa [lookup_cons, lookup_cons, if_neg hx, if_neg hx] at this
      rw [hrest, Option.some.inj hv]

/-- Equal memories are equal data: in the canonical form the contents determine the list. -/
theorem memory_ext {m m' : Memory} (hm : m.wf = true) (hm' : m'.wf = true)
    (h : ∀ x, Memory.lookup m x = Memory.lookup m' x) : m = m' :=
  eq_of_lookup_risingFrom hm hm' h

/-- Writing the same bytes to the same place again changes nothing. -/
theorem memWrite_twice {m : Memory} (a : Nat) (bs : List Byte) (hm : m.wf = true) :
    memWrite (memWrite m a bs) a bs = memWrite m a bs := by
  apply memory_ext (memWrite_wf a bs (memWrite_wf a bs hm)) (memWrite_wf a bs hm)
  intro x
  rw [lookup_memWrite, lookup_memWrite]
  split <;> rfl

theorem mixByte_wf (tick : Nat) (new : Memory) (a : Nat) {old : Memory} (h : old.wf = true) :
    (mixByte tick new a old).wf = true := by
  unfold mixByte
  split
  · split
    · exact write_wf _ _ h
    · exact h
  · exact h

theorem mixBytes_wf (tick : Nat) (new : Memory) (a len : Nat) {old : Memory} (h : old.wf = true) :
    (mixBytes tick new a len old).wf = true := by
  induction len generalizing a old with
  | zero => exact h
  | succ n ih => exact ih (a + 1) (mixByte_wf tick new a h)

theorem lookup_within {m : Memory} {cfg : Config} {a : Nat} {b : Byte} (h : m.within cfg = true)
    (hb : m.lookup a = some b) : cfg.addrFits a = true := by
  induction m with
  | nil => simp at hb
  | cons cell rest ih =>
    obtain ⟨k, v⟩ := cell
    simp only [Memory.within, List.all_cons, Bool.and_eq_true] at h ih
    rw [lookup_cons] at hb
    split at hb
    · rename_i heq; rw [heq]; exact h.1
    · exact ih h.2 hb

theorem mixByte_within {tick : Nat} {new : Memory} {cfg : Config} (a : Nat) {old : Memory}
    (hn : new.within cfg = true) (h : old.within cfg = true) :
    (mixByte tick new a old).within cfg = true := by
  unfold mixByte
  split
  · rename_i b hb
    split
    · exact write_within b (lookup_within hn hb) h
    · exact h
  · exact h

theorem mixBytes_within {tick : Nat} {new : Memory} {cfg : Config} (a len : Nat) {old : Memory}
    (hn : new.within cfg = true) (h : old.within cfg = true) :
    (mixBytes tick new a len old).within cfg = true := by
  induction len generalizing a old with
  | zero => exact h
  | succ n ih => exact ih (a + 1) (mixByte_within a hn h)

theorem read_mixByte (tick : Nat) (new : Memory) (a x : Nat) (old : Memory) :
    (mixByte tick new a old).read x = old.read x
      ∨ (x = a ∧ (mixByte tick new a old).read x = new.read x) := by
  unfold mixByte
  split
  · rename_i b hb
    split
    · rw [read_write]
      split
      · rename_i heq
        subst heq
        refine Or.inr ⟨rfl, ?_⟩
        unfold Memory.read
        rw [hb]; rfl
      · exact Or.inl rfl
    · exact Or.inl rfl
  · exact Or.inl rfl

/-- Reset during a command (70_reset_and_hazards.md R201): each byte of the range as before or as in
`new`, every other byte as before. -/
theorem read_mixBytes (tick : Nat) (new : Memory) (a len x : Nat) (old : Memory) :
    (mixBytes tick new a len old).read x = old.read x
      ∨ (a ≤ x ∧ x < a + len ∧ (mixBytes tick new a len old).read x = new.read x) := by
  induction len generalizing a old with
  | zero => exact Or.inl rfl
  | succ n ih =>
    rcases ih (a + 1) (mixByte tick new a old) with h | ⟨h1, h2, h3⟩
    · rcases read_mixByte tick new a x old with h' | ⟨hx, h'⟩
      · exact Or.inl (h.trans h')
      · exact Or.inr ⟨by omega, by omega, h.trans h'⟩
    · exact Or.inr ⟨by omega, by omega, h3⟩

end Sys2Proof.Machine
end

