-- ==== Sys2Proof/Laws/State.lean ====
section
/-! SUPPORT. One lemma per field per update: what each way of completing a command, and reset, does to
each field of State. -/

namespace Sys2Proof.Machine

/-! ### `raise` (60_exceptions.md R178) -/

@[simp] theorem raise_a (st : Status) (i : Word) (s : State) : (raise st i s).a = s.a := rfl
@[simp] theorem raise_b (st : Status) (i : Word) (s : State) : (raise st i s).b = s.b := rfl
@[simp] theorem raise_c (st : Status) (i : Word) (s : State) : (raise st i s).c = s.c := rfl
@[simp] theorem raise_status (st : Status) (i : Word) (s : State) : (raise st i s).status = st := rfl
@[simp] theorem raise_info (st : Status) (i : Word) (s : State) : (raise st i s).info = i := rfl
@[simp] theorem raise_mem (st : Status) (i : Word) (s : State) : (raise st i s).mem = s.mem := rfl
@[simp] theorem raise_result (st : Status) (i : Word) (s : State) : (raise st i s).result = none := rfl
@[simp] theorem raise_wordsOut (st : Status) (i : Word) (s : State) : (raise st i s).wordsOut = none := rfl
@[simp] theorem raise_cfg (st : Status) (i : Word) (s : State) : (raise st i s).cfg = s.cfg := rfl
@[simp] theorem raise_pending (st : Status) (i : Word) (s : State) : (raise st i s).pending = s.pending := rfl
@[simp] theorem raise_tick (st : Status) (i : Word) (s : State) : (raise st i s).tick = s.tick := rfl

/-! ### `complete` (00_scope.md R12) -/

@[simp] theorem complete_a (s : State) : (complete s).a = s.a := rfl
@[simp] theorem complete_b (s : State) : (complete s).b = s.b := rfl
@[simp] theorem complete_c (s : State) : (complete s).c = s.c := rfl
@[simp] theorem complete_status (s : State) : (complete s).status = .ok := rfl
@[simp] theorem complete_info (s : State) : (complete s).info = 0 := rfl
@[simp] theorem complete_mem (s : State) : (complete s).mem = s.mem := rfl
@[simp] theorem complete_result (s : State) : (complete s).result = none := rfl
@[simp] theorem complete_wordsOut (s : State) : (complete s).wordsOut = none := rfl
@[simp] theorem complete_cfg (s : State) : (complete s).cfg = s.cfg := rfl
@[simp] theorem complete_pending (s : State) : (complete s).pending = s.pending := rfl
@[simp] theorem complete_tick (s : State) : (complete s).tick = s.tick := rfl

/-! ### `completeResult` (30_encoding.md R75) -/

@[simp] theorem completeResult_a (v : Word) (s : State) : (completeResult v s).a = s.a := rfl
@[simp] theorem completeResult_b (v : Word) (s : State) : (completeResult v s).b = s.b := rfl
@[simp] theorem completeResult_c (v : Word) (s : State) : (completeResult v s).c = s.c := rfl
@[simp] theorem completeResult_status (v : Word) (s : State) : (completeResult v s).status = .ok := rfl
@[simp] theorem completeResult_info (v : Word) (s : State) : (completeResult v s).info = 0 := rfl
@[simp] theorem completeResult_mem (v : Word) (s : State) : (completeResult v s).mem = s.mem := rfl
@[simp] theorem completeResult_result (v : Word) (s : State) : (completeResult v s).result = some v := rfl
@[simp] theorem completeResult_wordsOut (v : Word) (s : State) : (completeResult v s).wordsOut = none := rfl
@[simp] theorem completeResult_cfg (v : Word) (s : State) : (completeResult v s).cfg = s.cfg := rfl
@[simp] theorem completeResult_pending (v : Word) (s : State) : (completeResult v s).pending = s.pending := rfl
@[simp] theorem completeResult_tick (v : Word) (s : State) : (completeResult v s).tick = s.tick := rfl

/-! ### `completeWords` (30_encoding.md R75) -/

@[simp] theorem completeWords_a (ws : List Word) (s : State) : (completeWords ws s).a = s.a := rfl
@[simp] theorem completeWords_b (ws : List Word) (s : State) : (completeWords ws s).b = s.b := rfl
@[simp] theorem completeWords_c (ws : List Word) (s : State) : (completeWords ws s).c = s.c := rfl
@[simp] theorem completeWords_status (ws : List Word) (s : State) : (completeWords ws s).status = .ok := rfl
@[simp] theorem completeWords_info (ws : List Word) (s : State) : (completeWords ws s).info = 0 := rfl
@[simp] theorem completeWords_mem (ws : List Word) (s : State) : (completeWords ws s).mem = s.mem := rfl
@[simp] theorem completeWords_result (ws : List Word) (s : State) : (completeWords ws s).result = none := rfl
@[simp] theorem completeWords_wordsOut (ws : List Word) (s : State) : (completeWords ws s).wordsOut = some ws := rfl
@[simp] theorem completeWords_cfg (ws : List Word) (s : State) : (completeWords ws s).cfg = s.cfg := rfl
@[simp] theorem completeWords_pending (ws : List Word) (s : State) : (completeWords ws s).pending = s.pending := rfl
@[simp] theorem completeWords_tick (ws : List Word) (s : State) : (completeWords ws s).tick = s.tick := rfl

/-! ### `storeAndComplete` (20_memory.md R53) -/

@[simp] theorem storeAndComplete_a (x : Nat) (bs : List Byte) (s : State) : (storeAndComplete x bs s).a = s.a := rfl
@[simp] theorem storeAndComplete_b (x : Nat) (bs : List Byte) (s : State) : (storeAndComplete x bs s).b = s.b := rfl
@[simp] theorem storeAndComplete_c (x : Nat) (bs : List Byte) (s : State) : (storeAndComplete x bs s).c = s.c := rfl
@[simp] theorem storeAndComplete_status (x : Nat) (bs : List Byte) (s : State) : (storeAndComplete x bs s).status = .ok := rfl
@[simp] theorem storeAndComplete_info (x : Nat) (bs : List Byte) (s : State) : (storeAndComplete x bs s).info = 0 := rfl
@[simp] theorem storeAndComplete_mem (x : Nat) (bs : List Byte) (s : State) : (storeAndComplete x bs s).mem = memWrite s.mem x bs := rfl
@[simp] theorem storeAndComplete_result (x : Nat) (bs : List Byte) (s : State) : (storeAndComplete x bs s).result = none := rfl
@[simp] theorem storeAndComplete_wordsOut (x : Nat) (bs : List Byte) (s : State) : (storeAndComplete x bs s).wordsOut = none := rfl
@[simp] theorem storeAndComplete_cfg (x : Nat) (bs : List Byte) (s : State) : (storeAndComplete x bs s).cfg = s.cfg := rfl
@[simp] theorem storeAndComplete_pending (x : Nat) (bs : List Byte) (s : State) : (storeAndComplete x bs s).pending = s.pending := rfl
@[simp] theorem storeAndComplete_tick (x : Nat) (bs : List Byte) (s : State) : (storeAndComplete x bs s).tick = s.tick := rfl

/-! ### `resetCore` (70_reset_and_hazards.md R200) -/

@[simp] theorem resetCore_a (s : State) : (resetCore s).a = State.reset.a := rfl
@[simp] theorem resetCore_b (s : State) : (resetCore s).b = State.reset.b := rfl
@[simp] theorem resetCore_c (s : State) : (resetCore s).c = State.reset.c := rfl
@[simp] theorem resetCore_status (s : State) : (resetCore s).status = State.reset.status := rfl
@[simp] theorem resetCore_info (s : State) : (resetCore s).info = State.reset.info := rfl
@[simp] theorem resetCore_mem (s : State) : (resetCore s).mem = s.mem := rfl
@[simp] theorem resetCore_result (s : State) : (resetCore s).result = State.reset.result := rfl
@[simp] theorem resetCore_wordsOut (s : State) : (resetCore s).wordsOut = State.reset.wordsOut := rfl
@[simp] theorem resetCore_cfg (s : State) : (resetCore s).cfg = s.cfg := rfl
@[simp] theorem resetCore_pending (s : State) : (resetCore s).pending = s.pending := rfl
@[simp] theorem resetCore_tick (s : State) : (resetCore s).tick = s.tick := rfl

/-! ### `answered` (60_exceptions.md R178) -/

@[simp] theorem answered_a (s : State) (st : Status) (i : Word) : (s.answered st i).a = s.a := rfl
@[simp] theorem answered_b (s : State) (st : Status) (i : Word) : (s.answered st i).b = s.b := rfl
@[simp] theorem answered_c (s : State) (st : Status) (i : Word) : (s.answered st i).c = s.c := rfl
@[simp] theorem answered_status (s : State) (st : Status) (i : Word) : (s.answered st i).status = st := rfl
@[simp] theorem answered_info (s : State) (st : Status) (i : Word) : (s.answered st i).info = i := rfl
@[simp] theorem answered_mem (s : State) (st : Status) (i : Word) : (s.answered st i).mem = s.mem := rfl
@[simp] theorem answered_result (s : State) (st : Status) (i : Word) : (s.answered st i).result = none := rfl
@[simp] theorem answered_wordsOut (s : State) (st : Status) (i : Word) : (s.answered st i).wordsOut = none := rfl
@[simp] theorem answered_cfg (s : State) (st : Status) (i : Word) : (s.answered st i).cfg = s.cfg := rfl
@[simp] theorem answered_pending (s : State) (st : Status) (i : Word) : (s.answered st i).pending = s.pending := rfl
@[simp] theorem answered_tick (s : State) (st : Status) (i : Word) : (s.answered st i).tick = s.tick := rfl

/-- `raise` is the completion that writes `STATUS` and `INFO` and nothing else (R178). -/
theorem raise_eq_answered (st : Status) (i : Word) (s : State) : raise st i s = s.answered st i := rfl

end Sys2Proof.Machine
end

