-- ==== Sys2Proof/Laws/Commands.lean ====
section
/-! SUPPORT. The shared shape of a command (checks, then effect) and the checks themselves: what each can
do, said once. -/

namespace Sys2Proof.Machine

@[simp] theorem firstFailure_nil : firstFailure [] = none := rfl

theorem firstFailure_cons (c : Check) (cs : List Check) :
    firstFailure (c :: cs) = if c.fails then some c else firstFailure cs := rfl

theorem firstFailure_some {cs : List Check} {c : Check} (h : firstFailure cs = some c) :
    c ∈ cs ∧ c.fails = true := by
  induction cs with
  | nil => simp at h
  | cons d rest ih =>
    rw [firstFailure_cons] at h
    split at h
    · cases h; exact ⟨List.mem_cons_self, ‹_›⟩
    · exact ⟨List.mem_cons_of_mem _ (ih h).1, (ih h).2⟩

theorem firstFailure_none {cs : List Check} (h : firstFailure cs = none) :
    ∀ c ∈ cs, c.fails = false := by
  induction cs with
  | nil => simp
  | cons d rest ih =>
    rw [firstFailure_cons] at h
    split at h
    · simp at h
    · rename_i hd
      intro c hc
      rcases List.mem_cons.mp hc with rfl | hc
      · simpa using hd
      · exact ih h c hc

/-- A command's only outcomes (R178): its effect when every check passes, else what its first failing
check raises. -/
theorem guarded_cases (checks : List Check) (effect : State → State) (s : State) :
    (firstFailure checks = none ∧ guarded checks effect s = .next (effect s)) ∨
    (∃ c ∈ checks, c.fails = true ∧ firstFailure checks = some c ∧
      guarded checks effect s = .next (raise c.status c.info s)) := by
  unfold guarded
  cases h : firstFailure checks with
  | none => exact Or.inl ⟨rfl, rfl⟩
  | some c => exact Or.inr ⟨c, (firstFailure_some h).1, (firstFailure_some h).2, rfl, rfl⟩

@[simp] theorem guarded_nil (effect : State → State) (s : State) :
    guarded [] effect s = .next (effect s) := rfl

/-- A check that fails decides the command. -/
theorem guarded_fail {c : Check} {cs : List Check} {effect : State → State} {s : State}
    (h : c.fails = true) : guarded (c :: cs) effect s = .next (s.answered c.status c.info) := by
  unfold guarded
  rw [firstFailure_cons, if_pos h]
  rfl

/-- A check that passes leaves the command to the later ones. -/
theorem guarded_pass {c : Check} {cs : List Check} {effect : State → State} {s : State}
    (h : c.fails = false) : guarded (c :: cs) effect s = guarded cs effect s := by
  unfold guarded
  rw [firstFailure_cons, if_neg (by simp [h])]

theorem mapped_iff (cfg : Config) (x : Nat) :
    mapped cfg x = true ↔ ∀ r ∈ cfg.unmapped, ¬(r.base ≤ x ∧ x < r.base + r.size) := by
  simp [mapped, inRegion]

theorem overlaps_iff (r : Region) (a len : Nat) :
    overlaps r a len = true ↔ ∃ x, a ≤ x ∧ x < a + len ∧ r.base ≤ x ∧ x < r.base + r.size := by
  simp only [overlaps, Bool.and_eq_true, decide_eq_true_eq]
  constructor
  · rintro ⟨⟨⟨h1, h2⟩, h3⟩, h4⟩
    exact ⟨max a r.base, by omega, by omega, by omega, by omega⟩
  · rintro ⟨x, h1, h2, h3, h4⟩
    exact ⟨⟨⟨by omega, by omega⟩, by omega⟩, by omega⟩

/-- The model's test is the in-range condition of 20_memory.md R59. -/
theorem inRange_iff (cfg : Config) (a len : Nat) : inRange cfg a len = true ↔ InRange cfg a len := by
  unfold inRange InRange
  simp only [Bool.and_eq_true, decide_eq_true_eq, Bool.not_eq_true', List.any_eq_false]
  refine and_congr_right fun _ => ?_
  constructor
  · intro h x hx1 hx2
    rw [mapped_iff]
    intro r hr hx
    exact h r hr ((overlaps_iff r a len).mpr ⟨x, hx1, hx2, hx.1, hx.2⟩)
  · intro h r hr ho
    obtain ⟨x, h1, h2, h3, h4⟩ := (overlaps_iff r a len).mp ho
    exact (mapped_iff cfg x).mp (h x h1 h2) r hr ⟨h3, h4⟩

theorem inRange_false_iff (cfg : Config) (a len : Nat) :
    inRange cfg a len = false ↔ ¬InRange cfg a len := by
  rw [← inRange_iff]; simp

theorem rangeCheck_pass {which : Word} {cfg : Config} {a len : Nat} (h : InRange cfg a len) :
    (rangeCheck which cfg a len).fails = false := by
  simp [rangeCheck, (inRange_iff cfg a len).mpr h]

theorem rangeCheck_fail {which : Word} {cfg : Config} {a len : Nat} (h : ¬InRange cfg a len) :
    (rangeCheck which cfg a len).fails = true := by
  simp [rangeCheck, (inRange_false_iff cfg a len).mpr h]

@[simp] theorem length_wordsToBytes (ws : List Word) : (wordsToBytes ws).length = 4 * ws.length := by
  induction ws with
  | nil => rfl
  | cons w rest ih => simp [wordsToBytes, Quad.toList, ih]; omega

theorem length_sampleWordsFrom (tick j n : Nat) (ws : List Word) :
    (sampleWordsFrom tick j n ws).length = n := by
  induction n generalizing j ws with
  | zero => rfl
  | succ n ih => cases ws <;> simp [sampleWordsFrom, ih]

@[simp] theorem length_sampleWords (tick : Nat) (count : Word) (ws : List Word) :
    (sampleWords tick count ws).length = count.toNat := length_sampleWordsFrom _ _ _ _

theorem sampleWordsFrom_length (tick j : Nat) (ws : List Word) :
    sampleWordsFrom tick j ws.length ws = ws := by
  induction ws generalizing j with
  | nil => rfl
  | cons w rest ih => simp [sampleWordsFrom, ih]

/-- A command that exists presents exactly `count` words (30_encoding.md R73), and those are sampled. -/
theorem sampleWords_of_match {tick : Nat} {count : Word} {ws : List Word}
    (h : ws.length = count.toNat) : sampleWords tick count ws = ws := by
  unfold sampleWords
  rw [← h]
  exact sampleWordsFrom_length tick 0 ws

@[simp] theorem length_roundState_block (r : RoundState) : r.block.length = 8 := by
  simp [RoundState.block]

@[simp] theorem length_aEncryptBlock (k : Quad Word) (bs : List Byte) :
    (aEncryptBlock k bs).length = 8 := length_roundState_block _

@[simp] theorem length_aDecryptBlock (k : Quad Word) (bs : List Byte) :
    (aDecryptBlock k bs).length = 8 := length_roundState_block _

@[simp] theorem length_bEncryptBlock (k : Quad Word) (bs : List Byte) :
    (bEncryptBlock k bs).length = 8 := length_roundState_block _

@[simp] theorem length_bDecryptBlock (k : Quad Word) (bs : List Byte) :
    (bDecryptBlock k bs).length = 8 := length_roundState_block _

theorem length_bytesToWords (bs : List Byte) : (bytesToWords bs).length = bs.length / 4 := by
  induction bs using bytesToWords.induct with
  | case1 b0 b1 b2 b3 rest ih => simp [bytesToWords, ih]; omega
  | case2 bs h =>
    match bs, h with
    | [], _ => simp [bytesToWords]
    | [_], _ => simp [bytesToWords]
    | [_, _], _ => simp [bytesToWords]
    | [_, _, _], _ => simp [bytesToWords]
    | b0 :: b1 :: b2 :: b3 :: rest, h => exact absurd rfl (h b0 b1 b2 b3 rest)

/-- A loop keeps what each iteration keeps. -/
theorem repeatTimes_keeps {σ : Type} {f : σ → σ} {P : σ → Prop} (h : ∀ s, P s → P (f s)) (n : Nat)
    (s : σ) (hs : P s) : P (repeatTimes f n s) := by
  induction n generalizing s with
  | zero => exact hs
  | succ n ih => exact ih (f s) (h s hs)

theorem repeatTimes_succ' {σ : Type} (f : σ → σ) (n : Nat) (s : σ) :
    repeatTimes f (n + 1) s = f (repeatTimes f n s) := by
  induction n generalizing s with
  | zero => rfl
  | succ n ih => exact ih (f s)

theorem length_foldl_set {α : Type} (g : List Word → α → List Word)
    (hg : ∀ w p, (g w p).length = w.length) (ps : List α) (w : List Word) :
    (ps.foldl g w).length = w.length := by
  induction ps generalizing w with
  | nil => rfl
  | cons p rest ih => simp [List.foldl_cons, ih, hg]

@[simp] theorem length_cEncryptRound (k : Quad Word) (n : Nat) (r : RingState) :
    (cEncryptRound k n r).w.length = r.w.length :=
  length_foldl_set _ (fun w p => by simp [cEncryptStep]) _ _

@[simp] theorem length_cDecryptRound (k : Quad Word) (n : Nat) (r : RingState) :
    (cDecryptRound k n r).w.length = r.w.length :=
  length_foldl_set _ (fun w p => by simp [cDecryptStep]) _ _

theorem length_cEncryptBlock (k : Quad Word) (n : Nat) (bs : List Byte) :
    (cEncryptBlock k n bs).length = 4 * (bs.length / 4) := by
  unfold cEncryptBlock
  rw [length_wordsToBytes, ← length_bytesToWords]
  congr 1
  exact repeatTimes_keeps (P := fun r : RingState => r.w.length = (bytesToWords bs).length)
    (fun r hr => by rw [length_cEncryptRound, hr]) _ _ rfl

theorem length_cDecryptBlock (k : Quad Word) (n : Nat) (bs : List Byte) :
    (cDecryptBlock k n bs).length = 4 * (bs.length / 4) := by
  unfold cDecryptBlock
  rw [length_wordsToBytes, ← length_bytesToWords]
  congr 1
  exact repeatTimes_keeps (P := fun r : RingState => r.w.length = (bytesToWords bs).length)
    (fun r hr => by rw [length_cDecryptRound, hr]) _ _ rfl

end Sys2Proof.Machine
end

