-- ==== Sys2Proof/Laws/Exec.lean ====
section
/-! SUPPORT. Every command is its list of checks and its effect: said once, so that a proof about all
commands splits on these and unfolds no meaning. -/

namespace Sys2Proof.Machine

/-- The checks of a command, in the order of its rule (60_exceptions.md R179). -/
def checksOf (s : State) : Instr → List Check
  | .cdcB2w srcAddr srcLen => [wholeWordsCheck srcLen, rangeCheck 1 s.cfg srcAddr srcLen.toNat]
  | .cdcW2b dstAddr dstLen count _ =>
    [coversWordsCheck dstLen count, rangeCheck 2 s.cfg dstAddr dstLen.toNat]
  | .aConstruct keyAddr keyLen => [keyLenCheck keyLen, rangeCheck 0 s.cfg keyAddr keyLength]
  | .aBlocksize => [instanceCheck s.a.valid]
  | .aEncrypt dstAddr dstLen srcAddr srcLen =>
    instanceCheck s.a.valid :: transformChecks s.cfg blockSizeAB dstAddr dstLen srcAddr srcLen
  | .aDecrypt dstAddr dstLen srcAddr srcLen =>
    instanceCheck s.a.valid :: transformChecks s.cfg blockSizeAB dstAddr dstLen srcAddr srcLen
  | .bConstruct keyAddr keyLen => [keyLenCheck keyLen, rangeCheck 0 s.cfg keyAddr keyLength]
  | .bBlocksize => [instanceCheck s.b.valid]
  | .bEncrypt dstAddr dstLen srcAddr srcLen =>
    instanceCheck s.b.valid :: wipedCheck s.b.wiped
      :: transformChecks s.cfg blockSizeAB dstAddr dstLen srcAddr srcLen
  | .bDecrypt dstAddr dstLen srcAddr srcLen =>
    instanceCheck s.b.valid :: wipedCheck s.b.wiped
      :: transformChecks s.cfg blockSizeAB dstAddr dstLen srcAddr srcLen
  | .bWipe => [instanceCheck s.b.valid]
  | .cConstruct keyAddr keyLen blockSize =>
    [keyLenCheck keyLen, blockSizeCheck s.cfg blockSize, rangeCheck 0 s.cfg keyAddr keyLength]
  | .cBlocksize => [instanceCheck s.c.valid]
  | .cEncrypt dstAddr dstLen srcAddr srcLen =>
    instanceCheck s.c.valid :: transformChecks s.cfg s.c.bs.toNat dstAddr dstLen srcAddr srcLen
  | .cDecrypt dstAddr dstLen srcAddr srcLen =>
    instanceCheck s.c.valid :: transformChecks s.cfg s.c.bs.toNat dstAddr dstLen srcAddr srcLen

/-- The effect of a command whose checks all pass. -/
def effectOf (s : State) : Instr → State
  | .cdcB2w srcAddr srcLen =>
    completeWords (bytesToWords (memRead s.mem srcAddr srcLen.toNat)) s
  | .cdcW2b dstAddr _ count wordsIn =>
    storeAndComplete dstAddr (wordsToBytes (sampleWords s.tick count wordsIn)) s
  | .aConstruct keyAddr _ => complete { s with a := EngineA.construct (memReadKey s.mem keyAddr) }
  | .aBlocksize => completeResult (BitVec.ofNat 32 blockSizeAB) s
  | .aEncrypt dstAddr _ srcAddr _ =>
    storeAndComplete dstAddr (aEncryptBlock s.a.k (memRead s.mem srcAddr blockSizeAB)) s
  | .aDecrypt dstAddr _ srcAddr _ =>
    storeAndComplete dstAddr (aDecryptBlock s.a.k (memRead s.mem srcAddr blockSizeAB)) s
  | .bConstruct keyAddr _ => complete { s with b := EngineB.construct (memReadKey s.mem keyAddr) }
  | .bBlocksize => completeResult (BitVec.ofNat 32 blockSizeAB) s
  | .bEncrypt dstAddr _ srcAddr _ =>
    storeAndComplete dstAddr (bEncryptBlock s.b.k (memRead s.mem srcAddr blockSizeAB)) s
  | .bDecrypt dstAddr _ srcAddr _ =>
    storeAndComplete dstAddr (bDecryptBlock s.b.k (memRead s.mem srcAddr blockSizeAB)) s
  | .bWipe => complete { s with b := s.b.wipe }
  | .cConstruct keyAddr _ blockSize =>
    complete { s with c := EngineC.construct (memReadKey s.mem keyAddr) blockSize }
  | .cBlocksize => completeResult s.c.bs s
  | .cEncrypt dstAddr _ srcAddr _ =>
    storeAndComplete dstAddr
      (cEncryptBlock s.c.k (s.c.bs.toNat / 4) (memRead s.mem srcAddr s.c.bs.toNat)) s
  | .cDecrypt dstAddr _ srcAddr _ =>
    storeAndComplete dstAddr
      (cDecryptBlock s.c.k (s.c.bs.toNat / 4) (memRead s.mem srcAddr s.c.bs.toNat)) s

/-- What a command's completion is: its first failing check's status, or its effect. -/
def outcomeOf (s : State) (i : Instr) : State :=
  match firstFailure (checksOf s i) with
  | some c => s.answered c.status c.info
  | none => effectOf s i

theorem guarded_eq (checks : List Check) (effect : State → State) (s : State) :
    guarded checks effect s = .next (match firstFailure checks with
      | some c => s.answered c.status c.info
      | none => effect s) := by
  unfold guarded
  cases firstFailure checks <;> rfl

/-- Every command is its checks, then its effect. -/
theorem exec_eq_outcomeOf (i : Instr) (s : State) : exec i s = .next (outcomeOf s i) := by
  cases i <;>
    simp only [exec, execCdcB2w, execCdcW2b, execAConstruct, execABlocksize, execAEncrypt,
      execADecrypt, execBConstruct, execBBlocksize, execBEncrypt, execBDecrypt, execBWipe,
      execCConstruct, execCBlocksize, execCEncrypt, execCDecrypt, guarded_eq] <;>
    rfl

theorem status_of_transformChecks {cfg : Config} {n d a : Nat} {dl al : Word} {c : Check}
    (h : c ∈ transformChecks cfg n d dl a al) : c.status ≠ .ok := by
  simp only [transformChecks, List.mem_cons, List.not_mem_nil, or_false] at h
  rcases h with rfl | rfl | rfl | rfl <;> simp [exactLenCheck, rangeCheck]

/-- No check raises `OK`. -/
theorem status_of_check {s : State} {i : Instr} {c : Check} (h : c ∈ checksOf s i) :
    c.status ≠ .ok := by
  cases i <;> simp only [checksOf, List.mem_cons, List.not_mem_nil, or_false] at h
  case cdcB2w => rcases h with rfl | rfl <;> simp [wholeWordsCheck, rangeCheck]
  case cdcW2b => rcases h with rfl | rfl <;> simp [coversWordsCheck, rangeCheck]
  case aConstruct => rcases h with rfl | rfl <;> simp [keyLenCheck, rangeCheck]
  case bConstruct => rcases h with rfl | rfl <;> simp [keyLenCheck, rangeCheck]
  case cConstruct => rcases h with rfl | rfl | rfl <;> simp [keyLenCheck, blockSizeCheck, rangeCheck]
  case aBlocksize => subst h; simp [instanceCheck]
  case bBlocksize => subst h; simp [instanceCheck]
  case cBlocksize => subst h; simp [instanceCheck]
  case bWipe => subst h; simp [instanceCheck]
  case bEncrypt => rcases h with rfl | rfl | h <;> [simp [instanceCheck]; simp [wipedCheck]; exact status_of_transformChecks h]
  case bDecrypt => rcases h with rfl | rfl | h <;> [simp [instanceCheck]; simp [wipedCheck]; exact status_of_transformChecks h]
  all_goals (rcases h with rfl | h <;> [simp [instanceCheck]; exact status_of_transformChecks h])

/-- The two ways a command can end (60_exceptions.md R178). -/
theorem exec_cases {i : Instr} {s t : State} (h : exec i s = .next t) :
    (firstFailure (checksOf s i) = none ∧ t = effectOf s i) ∨
    (∃ c, firstFailure (checksOf s i) = some c ∧ c.status ≠ .ok ∧ t = s.answered c.status c.info) := by
  rw [exec_eq_outcomeOf] at h
  injection h with h
  subst h
  unfold outcomeOf
  cases hf : firstFailure (checksOf s i) with
  | none => exact Or.inl ⟨rfl, rfl⟩
  | some c => exact Or.inr ⟨c, rfl, status_of_check (firstFailure_some hf).1, rfl⟩

@[simp] theorem status_effectOf (s : State) (i : Instr) : (effectOf s i).status = .ok := by
  cases i <;> rfl

@[simp] theorem info_effectOf (s : State) (i : Instr) : (effectOf s i).info = 0 := by
  cases i <;> rfl

@[simp] theorem cfg_effectOf (s : State) (i : Instr) : (effectOf s i).cfg = s.cfg := by
  cases i <;> rfl

@[simp] theorem pending_effectOf (s : State) (i : Instr) : (effectOf s i).pending = s.pending := by
  cases i <;> rfl

@[simp] theorem tick_effectOf (s : State) (i : Instr) : (effectOf s i).tick = s.tick := by
  cases i <;> rfl

/-- The first failing check decides a command. -/
theorem exec_of_firstFailure {i : Instr} {s : State} {c : Check}
    (h : firstFailure (checksOf s i) = some c) :
    exec i s = .next (s.answered c.status c.info) := by
  rw [exec_eq_outcomeOf, outcomeOf, h]

/-- A command whose checks all pass has its effect. -/
theorem exec_of_checks_pass {i : Instr} {s : State} (h : firstFailure (checksOf s i) = none) :
    exec i s = .next (effectOf s i) := by
  rw [exec_eq_outcomeOf, outcomeOf, h]

/-- A command that ends with `OK` has had its effect. -/
theorem exec_ok {i : Instr} {s t : State} (h : exec i s = .next t) (ht : t.status = .ok) :
    firstFailure (checksOf s i) = none ∧ t = effectOf s i := by
  rcases exec_cases h with h | ⟨c, _, hc, rfl⟩
  · exact h
  · exact absurd ht hc

end Sys2Proof.Machine
end

