-- ==== Sys2Proof/Laws/PerInstr.lean ====
section
/-! SUPPORT. One statement about each command as syntax: its code is legal, selects its format, and belongs
to no other command (30_encoding.md R74). -/

namespace Sys2Proof.Laws.LegalCode

/-- Any command port that presents the instruction's code decodes, whatever the operand ports hold, and
only to an instruction of the same code and format. -/
def Statement (i : Instr) : Prop :=
  ∀ (cfg : Config) (c : Command), c.code = i.code →
    ∃ j, decode cfg c = .ok j ∧ j.code = i.code ∧ j.format = i.format

theorem cdcB2w (srcAddr : Nat) (srcLen : Word) : Statement (.cdcB2w srcAddr srcLen) :=
  fun cfg c h => by simp [decode, h, Instr.code, codeRsv, codeUnit, codeOp, Instr.format]

theorem cdcW2b (dstAddr : Nat) (dstLen count : Word) (wordsIn : List Word) :
    Statement (.cdcW2b dstAddr dstLen count wordsIn) :=
  fun cfg c h => by simp [decode, h, Instr.code, codeRsv, codeUnit, codeOp, Instr.format]

theorem aConstruct (keyAddr : Nat) (keyLen : Word) : Statement (.aConstruct keyAddr keyLen) :=
  fun cfg c h => by simp [decode, h, Instr.code, codeRsv, codeUnit, codeOp, Instr.format]

theorem aBlocksize : Statement .aBlocksize :=
  fun cfg c h => by simp [decode, h, Instr.code, codeRsv, codeUnit, codeOp, Instr.format]

theorem aEncrypt (dstAddr : Nat) (dstLen : Word) (srcAddr : Nat) (srcLen : Word) :
    Statement (.aEncrypt dstAddr dstLen srcAddr srcLen) :=
  fun cfg c h => by simp [decode, h, Instr.code, codeRsv, codeUnit, codeOp, Instr.format]

theorem aDecrypt (dstAddr : Nat) (dstLen : Word) (srcAddr : Nat) (srcLen : Word) :
    Statement (.aDecrypt dstAddr dstLen srcAddr srcLen) :=
  fun cfg c h => by simp [decode, h, Instr.code, codeRsv, codeUnit, codeOp, Instr.format]

theorem bConstruct (keyAddr : Nat) (keyLen : Word) : Statement (.bConstruct keyAddr keyLen) :=
  fun cfg c h => by simp [decode, h, Instr.code, codeRsv, codeUnit, codeOp, Instr.format]

theorem bBlocksize : Statement .bBlocksize :=
  fun cfg c h => by simp [decode, h, Instr.code, codeRsv, codeUnit, codeOp, Instr.format]

theorem bEncrypt (dstAddr : Nat) (dstLen : Word) (srcAddr : Nat) (srcLen : Word) :
    Statement (.bEncrypt dstAddr dstLen srcAddr srcLen) :=
  fun cfg c h => by simp [decode, h, Instr.code, codeRsv, codeUnit, codeOp, Instr.format]

theorem bDecrypt (dstAddr : Nat) (dstLen : Word) (srcAddr : Nat) (srcLen : Word) :
    Statement (.bDecrypt dstAddr dstLen srcAddr srcLen) :=
  fun cfg c h => by simp [decode, h, Instr.code, codeRsv, codeUnit, codeOp, Instr.format]

theorem bWipe : Statement .bWipe :=
  fun cfg c h => by simp [decode, h, Instr.code, codeRsv, codeUnit, codeOp, Instr.format]

theorem cConstruct (keyAddr : Nat) (keyLen blockSize : Word) :
    Statement (.cConstruct keyAddr keyLen blockSize) :=
  fun cfg c h => by simp [decode, h, Instr.code, codeRsv, codeUnit, codeOp, Instr.format]

theorem cBlocksize : Statement .cBlocksize :=
  fun cfg c h => by simp [decode, h, Instr.code, codeRsv, codeUnit, codeOp, Instr.format]

theorem cEncrypt (dstAddr : Nat) (dstLen : Word) (srcAddr : Nat) (srcLen : Word) :
    Statement (.cEncrypt dstAddr dstLen srcAddr srcLen) :=
  fun cfg c h => by simp [decode, h, Instr.code, codeRsv, codeUnit, codeOp, Instr.format]

theorem cDecrypt (dstAddr : Nat) (dstLen : Word) (srcAddr : Nat) (srcLen : Word) :
    Statement (.cDecrypt dstAddr dstLen srcAddr srcLen) :=
  fun cfg c h => by simp [decode, h, Instr.code, codeRsv, codeUnit, codeOp, Instr.format]

end Sys2Proof.Laws.LegalCode
end

