-- ==== Sys2Proof/Machine/Listing.lean ====
section
/-! DEFINITION. Reading a line of a listing (30_encoding.md R78):
`<mnemonic> [<operand>=<value>, ...] ; comment`, numbers decimal or `0x` hexadecimal. What R78 leaves open
of it is settled as notes/assumptions/15.md says (DESIGN CHOICE). -/

namespace Sys2Proof.Machine

/-- What a line is made of: names and numbers, and the marks `=`, `:`, `,`, `[`, `]`. -/
inductive Token where
  | word (chars : List Char)
  | mark (c : Char)
deriving DecidableEq, Repr

/-- A character of a name or a number. -/
def isWordChar (c : Char) : Bool := c.isAlphanum || decide (c = '.') || decide (c = '_')

/-- The word read so far, as a token, before the rest. -/
def emitWord (acc : List Char) (rest : List Token) : List Token :=
  if acc = [] then rest else .word acc.reverse :: rest

/-- The tokens of a line up to its comment; `acc` is the word being read, last character first. -/
def tokens (acc : List Char) : List Char → Option (List Token)
  | [] => some (emitWord acc [])
  | c :: rest =>
    if c = ';' then some (emitWord acc [])
    else if isWordChar c then tokens (c :: acc) rest
    else if c = ' ' then (tokens [] rest).map (emitWord acc)
    else if c = '=' ∨ c = ':' ∨ c = ',' ∨ c = '[' ∨ c = ']' then
      (tokens [] rest).map fun ts => emitWord acc (.mark c :: ts)
    else none

/-- The value of a digit of the base, if it is one. -/
def digitValue (base : Nat) (c : Char) : Option Nat :=
  let v := if c.isDigit then c.toNat - '0'.toNat
    else if c.isUpper then c.toNat - 'A'.toNat + 10
    else c.toNat - 'a'.toNat + 10
  if c.isAlphanum ∧ v < base then some v else none

/-- The number the digits stand for, most significant first. -/
def digitsValue (base : Nat) : Nat → List Char → Option Nat
  | v, [] => some v
  | v, c :: rest => (digitValue base c).bind fun d => digitsValue base (v * base + d) rest

/-- "Numbers are decimal or `0x` hexadecimal" (R78). -/
def numberOf : List Char → Option Nat
  | [] => none
  | '0' :: 'x' :: c :: rest => digitsValue 16 0 (c :: rest)
  | c :: rest => digitsValue 10 0 (c :: rest)

/-- The port a name stands for (30_encoding.md R73). -/
def portOf (name : String) : Option Port :=
  if name = "key_addr" then some .keyAddr
  else if name = "key_len" then some .keyLen
  else if name = "block_size" then some .blockSize
  else if name = "dst_addr" then some .dstAddr
  else if name = "dst_len" then some .dstLen
  else if name = "src_addr" then some .srcAddr
  else if name = "src_len" then some .srcLen
  else if name = "count" then some .count
  else none

/-- The buffer a name stands for (R78, R79). -/
def bufferOf (name : String) : Option BufferName :=
  if name = "key" then some .key
  else if name = "dst" then some .dst
  else if name = "src" then some .src
  else if name = "buf" then some .buf
  else none

/-- The operand a bracketed list of words is, by its name: `words` (R78), or `words_in`, the port's own
name (R73; DESIGN CHOICE, notes/assumptions/15.md). -/
def wordListOf (name : String) : Option (List Nat → AsmOperand) :=
  if name = "words" then some .words
  else if name = "words_in" then some .wordsIn
  else none

/-- The words of a bracketed list from after its `[` to its `]`, and what follows; `ws` are the words so
far. -/
def readWords (ws : List Nat) : List Token → Option (List Nat × List Token)
  | .mark ']' :: rest => if ws = [] then some ([], rest) else none
  | .word v :: .mark ']' :: rest => (numberOf v).map fun v => (ws ++ [v], rest)
  | .word v :: .mark ',' :: rest => (numberOf v).bind fun v => readWords (ws ++ [v]) rest
  | _ => none

/-- One operand, which is the whole of the tokens. -/
def readOperand : List Token → Option AsmOperand
  | .word name :: .mark '=' :: .mark '[' :: rest =>
    (wordListOf (String.ofList name)).bind fun make =>
      match readWords [] rest with
      | some (ws, []) => some (make ws)
      | _ => none
  | [.word name, .mark '=', .word a, .mark ':', .word l] =>
    (bufferOf (String.ofList name)).bind fun b => (numberOf a).bind fun a =>
      (numberOf l).map fun l => .buffer b a l
  | [.word name, .mark '=', .word v] =>
    (portOf (String.ofList name)).bind fun p => (numberOf v).map fun v => .number p v
  | _ => none

/-- The operands of a line cut at the commas outside brackets; `acc` is the operand being read, last token
first, `inside` whether a `[` is open. -/
def splitOperands (acc : List Token) (inside : Bool) : List Token → List (List Token)
  | [] => [acc.reverse]
  | t :: rest =>
    if t = .mark ',' ∧ inside = false then acc.reverse :: splitOperands [] false rest
    else splitOperands (t :: acc) (t = .mark '[' || (inside && t ≠ .mark ']')) rest

/-- All operands, each read by itself. -/
def readAll : List (List Token) → Option (List AsmOperand)
  | [] => some []
  | ts :: rest => (readOperand ts).bind fun op => (readAll rest).map fun ops => op :: ops

/-- The operands of a line, of which there may be none. -/
def readOperands (ts : List Token) : Option (List AsmOperand) :=
  if ts = [] then some [] else readAll (splitOperands [] false ts)

/-- A line of a listing, read (R78). -/
def parseLine (line : String) : Option AsmLine :=
  match tokens [] line.toList with
  | some (.word mnemonic :: rest) =>
    (readOperands rest).map fun ops => { mnemonic := String.ofList mnemonic, operands := ops }
  | _ => none

/-- The command a line of a listing stands for (R78, R79). -/
def assembleLine (cfg : Config) (line : String) : Option Instr := (parseLine line).bind (assemble cfg)

end Sys2Proof.Machine
end

