-- ==== Sys2Proof/Tests/Slice0.lean ====
section
/-! SUPPORT. The author's own tests. Expected values are the spec's: 95_test_vectors.md (the section is named
beside each) or hand calculation from the rule named. The last part holds one witness for each statement
that has hypotheses. -/

set_option maxRecDepth 100000

namespace Sys2Proof.Tests

open Sys2Proof.Machine

/-! ## Small states and helpers -/

/-- Key `seq` of 95_test_vectors.md. -/
def seqWords : Quad Word := ⟨0x00010203, 0x04050607, 0x08090A0B, 0x0C0D0E0F⟩

/-- The sixteen bytes of key `seq`; the first eight are the block `P8`. -/
def seqBytes : List Byte := [0, 1, 2, 3, 4, 5, 6, 7, 8, 9, 10, 11, 12, 13, 14, 15]

def seqKey : Quad (Quad Byte) := ⟨⟨0, 1, 2, 3⟩, ⟨4, 5, 6, 7⟩, ⟨8, 9, 10, 11⟩, ⟨12, 13, 14, 15⟩⟩

/-- 32-bit addresses, `NMAX` 16, everything mapped. -/
def cfg16 : Config := { xaddr := 32, nmax := 16, unmapped := [] }

/-- Reset, with the bytes `00 .. 0f` at address 0. -/
def fresh : State := { State.reset with cfg := cfg16, mem := memWrite [] 0 seqBytes }

/-- All three engines hold key `seq`; `C.BS` = 12. -/
def ready : State :=
  { fresh with
    a := { valid := true, k := seqWords }
    b := { valid := true, wiped := false, kb := seqKey, k := seqWords }
    c := { valid := true, k := seqWords, bs := 12 } }

/-- `ready` with engine B wiped. -/
def wiped : State := { ready with b := ready.b.wipe }

/-- `ready` with the addresses from 0x8000 on unmapped (95_test_vectors.md 2.5, last row). -/
def holed : State := { ready with cfg := { cfg16 with unmapped := [⟨0x8000, 0xFFFF8000⟩] } }

def holds (o : Host.Outcome State Fault Refusal) (p : State → Bool) : Bool :=
  match o with
  | .next t => p t
  | .fault _ => false
  | .refused _ => false

/-- The outcome is a completion with this status and information. -/
def completes (o : Host.Outcome State Fault Refusal) (status : Status) (info : Word) : Bool :=
  holds o fun t => decide (t.status = status ∧ t.info = info)

/-- The outcome is `OK` with these bytes at the address, and the bytes `00 ..` of the source kept. -/
def stores (o : Host.Outcome State Fault Refusal) (a : Nat) (bytes : List Byte) (kept : Nat) : Bool :=
  holds o fun t => decide (t.status = .ok ∧ t.info = 0 ∧ memRead t.mem a bytes.length = bytes
    ∧ memRead t.mem 0 kept = seqBytes.take kept)

/-! ## WellFormed refuses what does not exist -/

theorem test_wf_xaddr_below_8 : ({ cfg16 with xaddr := 7 } : Config).wf = false := by decide
theorem test_wf_nmax_below_16 : ({ cfg16 with nmax := 15 } : Config).wf = false := by decide
theorem test_wf_config : cfg16.wf = true := by decide
theorem test_wf_address_too_wide : cfg16.addrFits (2 ^ 32) = false := by decide
theorem test_wf_address_widest : cfg16.addrFits (2 ^ 32 - 1) = true := by decide
theorem test_wf_words_too_few : wordsMatch 2 [1] = false := by decide
theorem test_wf_command_words : ({ Command.ofCode 0x01 with count := 1 } : Command).wf cfg16 = false := by
  decide
theorem test_wf_command_addresses :
    ({ Command.ofCode 0x12 with keyAddr := 2 ^ 32 } : Command).wf cfg16 = false ∧
    ({ Command.ofCode 0x12 with dstAddr := 2 ^ 32 } : Command).wf cfg16 = false ∧
    ({ Command.ofCode 0x12 with srcAddr := 2 ^ 32 } : Command).wf cfg16 = false := by decide
theorem test_wf_instructions :
    [Instr.cdcB2w (2 ^ 32) 0, .cdcW2b (2 ^ 32) 0 0 [], .cdcW2b 0 8 2 [1], .aConstruct (2 ^ 32) 16,
      .aEncrypt (2 ^ 32) 8 0 8, .aEncrypt 0 8 (2 ^ 32) 8, .aDecrypt (2 ^ 32) 8 0 8,
      .aDecrypt 0 8 (2 ^ 32) 8, .bConstruct (2 ^ 32) 16, .bEncrypt (2 ^ 32) 8 0 8,
      .bEncrypt 0 8 (2 ^ 32) 8, .bDecrypt (2 ^ 32) 8 0 8, .bDecrypt 0 8 (2 ^ 32) 8,
      .cConstruct (2 ^ 32) 16 8, .cEncrypt (2 ^ 32) 8 0 8, .cEncrypt 0 8 (2 ^ 32) 8,
      .cDecrypt (2 ^ 32) 8 0 8, .cDecrypt 0 8 (2 ^ 32) 8].all (fun i => !i.wf cfg16) = true := by
  decide

/-! ## Decoding: the code of every command written out from 30_encoding.md R71, R74 as `RSV UNIT OP` -/

theorem test_decode_codec :
    decodeTableWord 8 0b00_00_0000 = some (.cdcB2w 0 0) ∧
    decodeTableWord 8 0b00_00_0001 = some (.cdcW2b 0 0 0 []) := by decide
theorem test_decode_a :
    decodeTableWord 8 0b00_01_0000 = some (.aConstruct 0 0) ∧
    decodeTableWord 8 0b00_01_0001 = some .aBlocksize ∧
    decodeTableWord 8 0b00_01_0010 = some (.aEncrypt 0 0 0 0) ∧
    decodeTableWord 8 0b00_01_0011 = some (.aDecrypt 0 0 0 0) := by decide
theorem test_decode_b :
    decodeTableWord 8 0b00_10_0000 = some (.bConstruct 0 0) ∧
    decodeTableWord 8 0b00_10_0001 = some .bBlocksize ∧
    decodeTableWord 8 0b00_10_0010 = some (.bEncrypt 0 0 0 0) ∧
    decodeTableWord 8 0b00_10_0011 = some (.bDecrypt 0 0 0 0) ∧
    decodeTableWord 8 0b00_10_0100 = some .bWipe := by decide
theorem test_decode_c :
    decodeTableWord 8 0b00_11_0000 = some (.cConstruct 0 0 0) ∧
    decodeTableWord 8 0b00_11_0001 = some .cBlocksize ∧
    decodeTableWord 8 0b00_11_0010 = some (.cEncrypt 0 0 0 0) ∧
    decodeTableWord 8 0b00_11_0011 = some (.cDecrypt 0 0 0 0) := by decide

/-- The operand ports, each at a value of its own (R72, R73). -/
def allPorts (code : BitVec 8) : Command :=
  { code := code, keyAddr := 1, keyLen := 2, blockSize := 3, dstAddr := 4, dstLen := 5, srcAddr := 6,
    srcLen := 7, count := 1, wordsIn := [9] }

theorem test_decode_takes_the_ports_of_the_format :
    decode cfg16 (allPorts 0x00) = .ok (.cdcB2w 6 7) ∧
    decode cfg16 (allPorts 0x01) = .ok (.cdcW2b 4 5 1 [9]) ∧
    decode cfg16 (allPorts 0x20) = .ok (.bConstruct 1 2) ∧
    decode cfg16 (allPorts 0x30) = .ok (.cConstruct 1 2 3) ∧
    decode cfg16 (allPorts 0x13) = .ok (.aDecrypt 4 5 6 7) := by refine ⟨rfl, rfl, rfl, rfl, rfl⟩

/-- The codes 95_test_vectors.md 2.5 lists as illegal, by name of the reason (R76). -/
theorem test_decode_illegal :
    decode cfg16 (allPorts 0x14) = .error .unassignedOperation ∧
    decode cfg16 (allPorts 0x34) = .error .unassignedOperation ∧
    decode cfg16 (allPorts 0x02) = .error .unassignedOperation ∧
    decode cfg16 (allPorts 0x25) = .error .unassignedOperation ∧
    decode cfg16 (allPorts 0x40) = .error .reservedBits ∧
    decode cfg16 (allPorts 0xFF) = .error .reservedBits := by refine ⟨rfl, rfl, rfl, rfl, rfl, rfl⟩

/-- R78's own examples, letter for letter. -/
theorem test_assemble :
    assembleLine cfg16 "A.CONSTRUCT key=0x1000:16" = some (.aConstruct 0x1000 16) ∧
    assembleLine cfg16 "C.CONSTRUCT key=0x1000:16, block_size=16" = some (.cConstruct 0x1000 16 16) ∧
    assembleLine cfg16 "A.ENCRYPT   dst=0x2008:8, src=0x2000:8" = some (.aEncrypt 0x2008 8 0x2000 8) ∧
    assembleLine cfg16 "B.WIPE" = some .bWipe ∧
    assembleLine cfg16 "CDC.W2B     dst=0x3000:8, words=[0x00010203, 0x04050607]"
      = some (.cdcW2b 0x3000 8 2 [0x00010203, 0x04050607]) := by decide
/-- R79; a comment; a port by its own name; and lines that are none of R78. -/
theorem test_assemble_forms :
    assembleLine cfg16 "A.DECRYPT.IP buf=0x2008:8 ; in place" = some (.aDecrypt 0x2008 8 0x2008 8) ∧
    assembleLine cfg16 "B.CONSTRUCT key_addr=0xFFFFFFFF, key_len=15" = some (.bConstruct 0xFFFFFFFF 15) ∧
    assembleLine cfg16 "A.WIPE" = none ∧ assembleLine cfg16 "A.CONSTRUCT key=0x1000:16," = none ∧
    assembleLine cfg16 "A.CONSTRUCT key=0x100000000:16" = none := by decide
/-- `count` and `words_in` by port name, and a `buf` on a line that is no pseudo-command
(notes/assumptions/15.md). -/
theorem test_assemble_choices :
    assembleLine cfg16 "CDC.W2B dst=0x10:8, count=2, words_in=[7, 9]" = some (.cdcW2b 0x10 8 2 [7, 9]) ∧
    assembleLine cfg16 "CDC.W2B dst=0x10:8, words=[7, 9]" = some (.cdcW2b 0x10 8 2 [7, 9]) ∧
    assembleLine cfg16 "CDC.W2B dst=0x10:0, words=[]" = some (.cdcW2b 0x10 0 0 []) ∧
    assembleLine cfg16 "CDC.W2B dst=0x10:8, count=3, words_in=[7, 9]" = none ∧
    assembleLine cfg16 "CDC.W2B dst=0x10:8, words_in=[7, 9], count=2" = none ∧
    assembleLine cfg16 "CDC.W2B dst=0x10:8, words_in=[7, 9]" = none ∧
    assembleLine cfg16 "CDC.W2B dst=0x10:8, count=2, words=[7, 9]" = none ∧
    assembleLine cfg16 "B.WIPE buf=1:2" = none ∧
    assembleLine cfg16 "A.ENCRYPT dst=0:8, src=0:8, buf=0:8" = none ∧
    assembleLine cfg16 "A.ENCRYPT.IP buf=0:8, buf=0:8" = none := by decide

/-! ## The commands (95_test_vectors.md 2.4, 2.5 and 3) -/

/-- 2.4: an unaligned source, the first byte the most significant. -/
theorem test_cdc_b2w : holds (exec (.cdcB2w 1 8) ready) (fun t =>
    decide (t.status = .ok ∧ t.wordsOut = some [0x01020304, 0x05060708] ∧ t.mem = ready.mem)) = true := by
  decide
theorem test_cdc_b2w_length : completes (exec (.cdcB2w 0 6) ready) .bufferLength 6 = true := by decide

/-- 2.4: the destination may be longer; bytes beyond `4 * count` stay. -/
theorem test_cdc_w2b : holds (exec (.cdcW2b 4 12 2 [0x00000001, 0x80000000]) ready) (fun t =>
    decide (t.status = .ok ∧ memRead t.mem 4 8 = [0, 0, 0, 1, 0x80, 0, 0, 0]
      ∧ memRead t.mem 0 4 = [0, 1, 2, 3] ∧ memRead t.mem 12 4 = [12, 13, 14, 15])) = true := by decide
theorem test_cdc_w2b_too_short :
    completes (exec (.cdcW2b 0x200 8 3 [1, 2, 3]) ready) .bufferLength 8 = true := by decide

/-- 3.1 step 1. -/
theorem test_a_construct : holds (exec (.aConstruct 0 16) fresh) (fun t =>
    decide (t.status = .ok ∧ t.a = ⟨true, seqWords⟩ ∧ t.b = fresh.b ∧ t.c = fresh.c)) = true := by decide
/-- 2.5: the key's length, then its range up to the top of `M`. -/
theorem test_a_construct_checks :
    completes (exec (.aConstruct 0xFFFFFFFF 0xFFFFFFFF) fresh) .invalidKeySize 0xFFFFFFFF = true ∧
    completes (exec (.aConstruct 0xFFFFFFF1 16) fresh) .addressRange 0 = true ∧
    completes (exec (.aConstruct 0xFFFFFFF0 16) fresh) .ok 0 = true := by decide
theorem test_a_blocksize :
    holds (exec .aBlocksize ready) (fun t => decide (t.status = .ok ∧ t.result = some 8)) = true ∧
    completes (exec .aBlocksize fresh) .noInstance 0 = true := by decide
/-- 2.1, row `seq`. -/
theorem test_a_encrypt : stores (exec (.aEncrypt 0x20 8 0 8) ready) 0x20
    [0x54, 0xd5, 0x1b, 0x2b, 0xf3, 0xe4, 0x7e, 0x12] 16 = true := by decide
/-- 2.5: the order of the checks. -/
theorem test_a_encrypt_checks :
    completes (exec (.aEncrypt 0x10 9 0 7) fresh) .noInstance 0 = true ∧
    completes (exec (.aEncrypt 0x10 9 0 7) ready) .bufferLength 7 = true ∧
    completes (exec (.aEncrypt 0xFFFFFFFC 7 0 8) ready) .bufferLength 7 = true ∧
    completes (exec (.aEncrypt 0xFFFFFFFC 8 0xFFFFFFF9 8) ready) .addressRange 1 = true ∧
    completes (exec (.aEncrypt 0x7FFC 8 0 8) holed) .addressRange 2 = true := by decide
/-- 2.1, row `seq`. -/
theorem test_a_decrypt : stores (exec (.aDecrypt 0x20 8 0 8) ready) 0x20
    [0xec, 0x62, 0xa3, 0x44, 0x50, 0x8d, 0xf6, 0x64] 16 = true := by decide
theorem test_a_decrypt_checks :
    completes (exec (.aDecrypt 0x10 9 0 8) ready) .bufferLength 9 = true := by decide

/-- 3.2 steps 3 and 8: a construct also ends the wiped condition. -/
theorem test_b_construct : holds (exec (.bConstruct 0 16) wiped) (fun t =>
    decide (t.status = .ok ∧ t.b = ⟨true, false, seqKey, seqWords⟩ ∧ t.a = wiped.a)) = true := by decide
/-- 2.5: a refused construct leaves the instance wiped. -/
theorem test_b_construct_refused : holds (exec (.bConstruct 0 3) wiped) (fun t =>
    decide (t.status = .invalidKeySize ∧ t.info = 3 ∧ t.b = wiped.b)) = true := by decide
theorem test_b_blocksize_wiped :
    holds (exec .bBlocksize wiped) (fun t => decide (t.status = .ok ∧ t.result = some 8)) = true := by
  decide
/-- 2.2, row `seq`. -/
theorem test_b_encrypt : stores (exec (.bEncrypt 0x20 8 0 8) ready) 0x20
    [0xff, 0xc5, 0x2d, 0x10, 0xa0, 0x10, 0x01, 0x0b] 16 = true := by decide
theorem test_b_encrypt_wiped : completes (exec (.bEncrypt 0x10 9 0 7) wiped) .keyWiped 0 = true := by
  decide
/-- 2.2, row `seq`. -/
theorem test_b_decrypt : stores (exec (.bDecrypt 0x20 8 0 8) ready) 0x20
    [0x39, 0x02, 0xc6, 0xf4, 0x9a, 0x73, 0x7f, 0x6c] 16 = true := by decide
theorem test_b_decrypt_wiped : completes (exec (.bDecrypt 0x20 8 0 8) wiped) .keyWiped 0 = true := by
  decide
/-- 3.2 step 5: zeros in the copy of the key, the key in `M` kept; again on a wiped instance. -/
theorem test_b_wipe : holds (exec .bWipe ready) (fun t =>
    decide (t.status = .ok ∧ t.b = ⟨true, true, zeroKey, ⟨0, 0, 0, 0⟩⟩ ∧ t.mem = ready.mem)) = true ∧
    completes (exec .bWipe wiped) .ok 0 = true := by decide
theorem test_b_wipe_no_engine : completes (exec .bWipe fresh) .noInstance 0 = true := by decide

/-- 3.3 step 8: n = 3. -/
theorem test_c_construct : holds (exec (.cConstruct 0 16 12) fresh) (fun t =>
    decide (t.status = .ok ∧ t.c = ⟨true, seqWords, 12⟩ ∧ t.a = fresh.a)) = true := by decide
/-- 2.5: the order of the checks and the legal sizes, `NMAX` = 16. -/
theorem test_c_construct_checks :
    completes (exec (.cConstruct 0 15 10) fresh) .invalidKeySize 15 = true ∧
    completes (exec (.cConstruct 0 16 10) fresh) .blockSize 10 = true ∧
    completes (exec (.cConstruct 0 16 4) fresh) .blockSize 4 = true ∧
    completes (exec (.cConstruct 0 16 68) fresh) .blockSize 68 = true ∧
    completes (exec (.cConstruct 0xFFFFFFF8 16 6) fresh) .blockSize 6 = true ∧
    completes (exec (.cConstruct 0 16 64) fresh) .ok 0 = true ∧
    completes (exec (.cConstruct 0 16 8) fresh) .ok 0 = true := by decide
theorem test_c_blocksize :
    holds (exec .cBlocksize ready) (fun t => decide (t.status = .ok ∧ t.result = some 12)) = true := by
  decide
/-- 3.3 step 9: n = 3, the destination overlapping the source. -/
theorem test_c_encrypt : stores (exec (.cEncrypt 4 12 0 12) ready) 4
    [0x24, 0x9f, 0x90, 0x19, 0x23, 0x20, 0xb6, 0xc8, 0xcd, 0xda, 0xd1, 0xb6] 4 = true := by decide
/-- 3.3 step 10: the block size is the engine's. -/
theorem test_c_encrypt_length : completes (exec (.cEncrypt 0 16 0 16) ready) .bufferLength 16 = true := by
  decide
/-- 2.3, row n = 3. -/
theorem test_c_decrypt : stores (exec (.cDecrypt 0x20 12 0 12) ready) 0x20
    [0x0e, 0x89, 0x80, 0x0d, 0x33, 0x26, 0xe9, 0x4a, 0x93, 0x29, 0xd4, 0x9e] 16 = true := by decide
theorem test_c_decrypt_no_engine : completes (exec (.cDecrypt 0 8 0 8) fresh) .noInstance 0 = true := by
  decide

/-- 2.3, rows n = 2 and n = 4 (the values decision D13 gives). -/
theorem test_cipher_c_n2 : cEncryptBlock seqWords 2 (seqBytes.take 8)
    = [0x12, 0x1a, 0x0f, 0x71, 0x5f, 0x25, 0x50, 0xed] := by decide
theorem test_cipher_c_n4 : cEncryptBlock seqWords 4 seqBytes
    = [0xd1, 0xa5, 0x12, 0x2b, 0x42, 0xe5, 0x13, 0xd0, 0xf5, 0x48, 0x38, 0x1d, 0xc4, 0x42, 0x76, 0x83] := by
  decide
/-- 2.1, last trace row: the shifts at bit 31 and bit 0, round 1. -/
theorem test_cipher_a_round_corner :
    aEncryptRound seqWords ⟨0x00000000, 0x80000001, 0⟩ = ⟨0x16337DAE, 0x5394BA71, 0x9E3779B9⟩ := by decide

/-! ## The host -/

/-- 30_encoding.md R75, 93 U16: a port without a value. -/
theorem test_read_result_without_value :
    step { ready with pending := [.read .result] } = .fault .portWithoutValue := by rfl
theorem test_host_write_outside :
    step { ready with pending := [.write 0xFFFFFFFF [1, 2]] } = .fault .hostAccessOutsideMemory := by rfl
/-- 2.6: reset after anything is the all-zero state, `M` kept. -/
theorem test_reset_event : holds (step { wiped with status := .keyWiped, pending := [.reset] }) (fun t =>
    decide (t.a = State.reset.a ∧ t.b = State.reset.b ∧ t.c = State.reset.c ∧ t.status = .ok
      ∧ t.mem = wiped.mem)) = true := by decide
/-- The command port runs the table's row right after reset. -/
theorem test_first_command :
    completes (step (State.reset.withFetchWord 8 0x24)) .noInstance 0 = true ∧
    completes (step (State.reset.withFetchWord 8 0x14)) .illegalCommand 0x14 = true := by decide
/-- 60_exceptions.md R180: which completions a good run may hold. -/
theorem test_good_run :
    goodRun 1 { ready with pending := [.command (Command.ofCode 0x10)] } = true ∧
    goodRun 1 { ready with pending := [.command (Command.ofCode 0x14)] } = false := by decide

/-! ## Witnesses: what meets the hypotheses of each statement, every clause at a boundary of its range -/

theorem of_holds {o : Host.Outcome State Fault Refusal} {p : State → Bool} (h : holds o p = true) :
    ∃ t, o = .next t ∧ p t = true := by
  cases o with
  | next t => exact ⟨t, rfl, h⟩
  | fault f => cases h
  | refused r => cases h

theorem runs_of {i : Instr} {s : State} (h : firstFailure (checksOf s i) = none) :
    ∃ t, exec i s = .next t ∧ t.status = .ok :=
  ⟨effectOf s i, exec_of_checks_pass h, status_effectOf s i⟩

theorem in_range {cfg : Config} {a len : Nat} (h : inRange cfg a len = true) : InRange cfg a len :=
  (inRange_iff cfg a len).mp h

theorem not_in_range {cfg : Config} {a len : Nat} (h : inRange cfg a len = false) :
    ¬InRange cfg a len := (inRange_false_iff cfg a len).mp h

/-- One instruction of each constructor, addresses at the top of the ports, and `count` 0 as well. -/
def topInstructions : List Instr :=
  [.cdcB2w 0xFFFFFFFF 0xFFFFFFFF, .cdcW2b 0xFFFFFFFF 8 2 [1, 0xFFFFFFFF], .cdcW2b 0 0 0 [],
    .aConstruct 0xFFFFFFFF 16, .aBlocksize, .aEncrypt 0xFFFFFFFF 8 0xFFFFFFFF 8,
    .aDecrypt 0xFFFFFFFF 8 0 0xFFFFFFFF, .bConstruct 0xFFFFFFFF 16, .bBlocksize,
    .bEncrypt 0xFFFFFFFF 8 0 8, .bDecrypt 0xFFFFFFFF 8 0 8, .bWipe, .cConstruct 0xFFFFFFFF 16 12,
    .cBlocksize, .cEncrypt 0xFFFFFFFF 12 0 12, .cDecrypt 0xFFFFFFFF 12 0 12]

theorem witness_CommandCodesDecodeAsTabulated :
    (commandCodes ++ [0x02, 0x14, 0x25, 0x34, 0x40, 0xFF]).all (fun n => (allPorts n).wf cfg16) = true ∧
    (0x02#8 ∉ commandCodes ∧ 0x14#8 ∉ commandCodes ∧ 0x40#8 ∉ commandCodes ∧ 0xFF#8 ∉ commandCodes) := by
  decide
theorem witness_IllegalCodeCompletesWithIllegalCommand :
    ({ ready with pending := [.command (allPorts 0x34)] } : State).pending = .command (allPorts 0x34) :: [] ∧
    (allPorts 0x34).code ∉ commandCodes := by decide
theorem witness_DecodeInvertsEncode : topInstructions.all (fun i => i.wf cfg16) = true := by decide
theorem witness_EncodeInvertsDecode :
    (allPorts 0x01).wf cfg16 = true ∧ decode cfg16 (allPorts 0x01) = .ok (.cdcW2b 4 5 1 [9]) := ⟨by decide, rfl⟩
/-- Commands of each format that differ on every port the format does not sample. -/
theorem witness_UnsampledPortsHaveNoEffect :
    (decode ready.cfg (allPorts 0x24) = .ok .bWipe ∧ samePorts .n (allPorts 0x24) (Command.ofCode 0x24)) ∧
    (decode ready.cfg (allPorts 0x10) = .ok (.aConstruct 1 2) ∧
      samePorts .k (allPorts 0x10) { Command.ofCode 0x10 with keyAddr := 1, keyLen := 2 }) ∧
    (decode ready.cfg (allPorts 0x30) = .ok (.cConstruct 1 2 3) ∧
      samePorts .kc (allPorts 0x30) { Command.ofCode 0x30 with keyAddr := 1, keyLen := 2, blockSize := 3 }) ∧
    (decode ready.cfg (allPorts 0x33) = .ok (.cDecrypt 4 5 6 7) ∧ samePorts .x (allPorts 0x33)
      { Command.ofCode 0x33 with dstAddr := 4, dstLen := 5, srcAddr := 6, srcLen := 7 }) ∧
    (decode ready.cfg (allPorts 0x00) = .ok (.cdcB2w 6 7) ∧
      samePorts .r (allPorts 0x00) { Command.ofCode 0x00 with srcAddr := 6, srcLen := 7 }) ∧
    (decode ready.cfg (allPorts 0x01) = .ok (.cdcW2b 4 5 1 [9]) ∧ samePorts .w (allPorts 0x01)
      { Command.ofCode 0x01 with dstAddr := 4, dstLen := 5, count := 1, wordsIn := [9] }) :=
  ⟨⟨rfl, trivial⟩, ⟨rfl, rfl, rfl⟩, ⟨rfl, rfl, rfl, rfl⟩, ⟨rfl, rfl, rfl, rfl, rfl⟩, ⟨rfl, rfl, rfl⟩,
    ⟨rfl, rfl, rfl, rfl, rfl⟩⟩
theorem witness_AssembleInvertsListing : topInstructions.all (fun i => i.wf cfg16) = true := by decide
theorem witness_PseudoCommandsExpandInPlace :
    cfg16.addrFits 0xFFFFFFFF = true ∧ "B.WIPE.IP" ∉ ["A.ENCRYPT.IP", "A.DECRYPT.IP", "B.ENCRYPT.IP",
      "B.DECRYPT.IP", "C.ENCRYPT.IP", "C.DECRYPT.IP"] := ⟨by decide, by decide⟩
theorem witness_StepRunsTheDecodedCommand :
    ({ ready with pending := [.command (allPorts 0x24), .reset] } : State).pending
      = .command (allPorts 0x24) :: [.reset] ∧
    decode ready.cfg (allPorts 0x24) = .ok .bWipe ∧ ready.pending = [] := ⟨rfl, rfl, rfl⟩
theorem witness_ResetEventClearsRegistersAndKeepsMemory :
    ({ ready with pending := [.reset, .command (allPorts 0x14)] } : State).pending
      = .reset :: .command (allPorts 0x14) :: [] ∧
    ({ ready with pending := [.resetDuring (allPorts 0x01)] } : State).pending
      = .resetDuring (allPorts 0x01) :: [] ∧
    (∃ t, step { ready with pending := [.command (allPorts 0x24)] } = .next t) ∧
    (∀ rest, [HostEvent.command (allPorts 0x24)] ≠ .reset :: rest) ∧
    (∀ c rest, [HostEvent.command (allPorts 0x24)] ≠ .resetDuring c :: rest) :=
  ⟨rfl, rfl, ⟨_, rfl⟩, by simp, by simp⟩
theorem witness_ResetDuringCommandLeavesOldOrNewBytes :
    let c : Command := { Command.ofCode 0x12 with dstAddr := 0x20, dstLen := 8, srcAddr := 0, srcLen := 8 }
    ({ ready with pending := [.resetDuring c] } : State).pending = .resetDuring c :: [] ∧
    decode ready.cfg c = .ok (.aEncrypt 0x20 8 0 8) ∧
    ∃ t, exec (.aEncrypt 0x20 8 0 8) { ready with pending := [], tick := 1 } = .next t :=
  ⟨rfl, rfl, (runs_of (by decide)).imp fun _ h => h.1⟩
theorem witness_HostWriteIsSeenAndTouchesNothingElse :
    ({ ready with pending := [.write 0xFFFFFFFE [1, 2]] } : State).pending = .write 0xFFFFFFFE [1, 2] :: [] ∧
    InRange ready.cfg 0xFFFFFFFE [1#8, 2].length ∧ InRange ready.cfg 0 ([] : List Byte).length :=
  ⟨rfl, in_range (by decide), in_range (by decide)⟩
theorem witness_ResultPortsHaveValuesOnlyWhereNamed :
    (∃ t, exec .cBlocksize ready = .next t ∧ t.status = .ok) ∧
    (∃ t, exec (.cdcB2w 0 8) ready = .next t ∧ t.status = .ok) ∧
    ready.result = none ∧ ready.wordsOut = none ∧
    ({ ready with result := some 8, pending := [.read .result] } : State).pending = .read .result :: [] ∧
    ({ ready with wordsOut := some [], pending := [.read .wordsOut] } : State).pending
      = .read .wordsOut :: [] :=
  ⟨runs_of (by decide), runs_of (by decide), rfl, rfl, rfl, rfl⟩
/-- A byte below the buffer's end, and an address on either side of the written bytes. -/
theorem witness_MemReadAndMemWriteMoveExactlyTheirBytes :
    0 < 1 ∧ 1 < ([5, 6] : List Byte).length ∧
    ¬(4 ≤ 3 ∧ 3 < 4 + ([5, 6] : List Byte).length) ∧ ¬(4 ≤ 6 ∧ 6 < 4 + ([5, 6] : List Byte).length) := by
  decide
theorem witness_WordSequenceCodecInverse :
    ([] : List Byte).length % 4 = 0 ∧ seqBytes.length % 4 = 0 ∧ seqBytes[4 * 3]? = some 12 ∧
    seqBytes[4 * 3 + 1]? = some 13 ∧ seqBytes[4 * 3 + 2]? = some 14 ∧ seqBytes[4 * 3 + 3]? = some 15 ∧
    ([7, 9] : List Word)[1]? = some 9 := by decide
theorem witness_KeyWordsComeFromKeyBytesInOrder : 0 < 4 ∧ 3 < 4 := by decide
theorem witness_CdcB2wCommand :
    (6 : Word).toNat % 4 ≠ 0 ∧
    ((4 : Word).toNat % 4 = 0 ∧ ¬InRange ready.cfg 0xFFFFFFFD (4 : Word).toNat) ∧
    ((4 : Word).toNat % 4 = 0 ∧ InRange ready.cfg 0xFFFFFFFC (4 : Word).toNat) ∧
    ((0 : Word).toNat % 4 = 0 ∧ InRange ready.cfg 0xFFFFFFFF (0 : Word).toNat) :=
  ⟨by decide, ⟨by decide, not_in_range (by decide)⟩, ⟨by decide, in_range (by decide)⟩,
    ⟨by decide, in_range (by decide)⟩⟩
theorem witness_CdcW2bCommand :
    ([7, 9] : List Word).length = (2 : Word).toNat ∧ (10 : Word).toNat % 4 ≠ 0 ∧
    (4 : Word).toNat < 4 * (2 : Word).toNat ∧
    ((8 : Word).toNat % 4 = 0 ∧ 4 * (2 : Word).toNat ≤ (8 : Word).toNat ∧
      ¬InRange ready.cfg 0xFFFFFFF9 (8 : Word).toNat) ∧
    ((8 : Word).toNat % 4 = 0 ∧ 4 * (2 : Word).toNat ≤ (8 : Word).toNat ∧
      InRange ready.cfg 0xFFFFFFF8 (8 : Word).toNat) :=
  ⟨by decide, by decide, by decide, ⟨by decide, by decide, not_in_range (by decide)⟩,
    ⟨by decide, by decide, in_range (by decide)⟩⟩
theorem witness_RoundSumsOfEnginesAAndB : 0 ≤ 32 ∧ 32 ≤ 32 := by decide
theorem witness_RoundsOfCipherA : (seqBytes.take 8).length = 8 ∧ 31 < 32 := by decide
theorem witness_CipherARoundTrip : (seqBytes.take 8).length = 8 := by decide
/-- Three lengths around 16, and the key buffers on either side of the top of `M`. -/
theorem witness_AConstructCommand :
    (15#32 ≠ 16#32 ∧ 17#32 ≠ 16#32) ∧ ¬InRange fresh.cfg 0xFFFFFFF1 16 ∧ InRange fresh.cfg 0xFFFFFFF0 16 :=
  ⟨by decide, not_in_range (by decide), in_range (by decide)⟩
theorem witness_ABlocksizeCommand : fresh.a.valid = false ∧ ready.a.valid = true := by decide
theorem witness_AEncryptCommand :
    fresh.a.valid = false ∧ ready.a.valid = true ∧ (7#32 ≠ 8#32 ∧ 9#32 ≠ 8#32) ∧
    ¬InRange ready.cfg 0xFFFFFFF9 8 ∧ InRange ready.cfg 0xFFFFFFF8 8 ∧ ¬InRange holed.cfg 0x7FFC 8 ∧
    InRange holed.cfg 0x7FF8 8 :=
  ⟨by decide, by decide, by decide, not_in_range (by decide), in_range (by decide),
    not_in_range (by decide), in_range (by decide)⟩
theorem witness_ADecryptCommand :
    fresh.a.valid = false ∧ ready.a.valid = true ∧ (7#32 ≠ 8#32 ∧ 16#32 ≠ 8#32) ∧
    ¬InRange ready.cfg 0xFFFFFFF9 8 ∧ InRange ready.cfg 0xFFFFFFF8 8 :=
  ⟨by decide, by decide, by decide, not_in_range (by decide), in_range (by decide)⟩
theorem witness_RoundsOfCipherB : (seqBytes.drop 8).length = 8 ∧ 0 < 32 := by decide
theorem witness_CipherBRoundTrip : (seqBytes.drop 8).length = 8 := by decide
theorem witness_BConstructCommand :
    (15#32 ≠ 16#32 ∧ 17#32 ≠ 16#32) ∧ ¬InRange wiped.cfg 0xFFFFFFF1 16 ∧ InRange wiped.cfg 0xFFFFFFF0 16 :=
  ⟨by decide, not_in_range (by decide), in_range (by decide)⟩
theorem witness_BBlocksizeCommand :
    fresh.b.valid = false ∧ ready.b.valid = true ∧ wiped.b.valid = true := by decide
theorem witness_BEncryptCommand :
    fresh.b.valid = false ∧ (wiped.b.valid = true ∧ wiped.b.wiped = true) ∧
    (ready.b.valid = true ∧ ready.b.wiped = false) ∧ (7#32 ≠ 8#32 ∧ 9#32 ≠ 8#32) ∧
    ¬InRange ready.cfg 0xFFFFFFF9 8 ∧ InRange ready.cfg 0xFFFFFFF8 8 :=
  ⟨by decide, by decide, by decide, by decide, not_in_range (by decide), in_range (by decide)⟩
theorem witness_BDecryptCommand :
    fresh.b.valid = false ∧ (wiped.b.valid = true ∧ wiped.b.wiped = true) ∧
    (ready.b.valid = true ∧ ready.b.wiped = false) ∧ (7#32 ≠ 8#32 ∧ 0#32 ≠ 8#32) ∧
    ¬InRange ready.cfg 0xFFFFFFF9 8 ∧ InRange ready.cfg 0xFFFFFFF8 8 :=
  ⟨by decide, by decide, by decide, by decide, not_in_range (by decide), in_range (by decide)⟩
theorem witness_BWipeCommand : fresh.b.valid = false ∧ ready.b.valid = true ∧ 15 < 16 := by decide
theorem witness_RoundCountOfC : 2 ≤ 2 ∧ (27 ≤ 27 ∧ 27 ≤ 52) ∧ (27 ≤ 52 ∧ 52 ≤ 52) ∧ 53 ≤ 53 := by decide
/-- The key index of 95_test_vectors.md 2.3, rows n = 3, p = 2 and n = 4, p = 3: `e` = 2. -/
theorem witness_MixingFunctionInNumbers :
    seqWords.toList[(2 % 4) ^^^ (2#2).toNat]? = some 0x00010203 ∧
    seqWords.toList[(7 % 4) ^^^ (2#2).toNat]? = some 0x04050607 := by decide
theorem witness_RoundsOfCipherC :
    (2 ≤ 2 ∧ (seqBytes.take 8).length = 4 * 2 ∧ 31 < roundsC 2 ∧ 1 < 2) ∧
    (2 ≤ 3 ∧ (seqBytes.take 12).length = 4 * 3 ∧ 22 < roundsC 3 ∧ 2 < 3) := by decide
theorem witness_CipherCRoundTrip :
    (2 ≤ 2 ∧ (seqBytes.take 8).length = 4 * 2) ∧ (2 ≤ 3 ∧ (seqBytes.take 12).length = 4 * 3) := by decide
theorem witness_CarriedFormEqualsIndexForm :
    (2 ≤ 2 ∧ (seqBytes.take 8).length = 4 * 2) ∧ (2 ≤ 4 ∧ seqBytes.length = 4 * 4) := by decide
/-- The sizes on either side of each limit, `NMAX` = 16. -/
theorem witness_CConstructCommand :
    15#32 ≠ 16#32 ∧ ((7#32).toNat < 8 ∧ (10#32).toNat % 4 ≠ 0 ∧ fresh.cfg.nmax < (68#32).toNat / 4) ∧
    (8 ≤ (8#32).toNat ∧ (8#32).toNat % 4 = 0 ∧ (8#32).toNat / 4 ≤ fresh.cfg.nmax) ∧
    (8 ≤ (64#32).toNat ∧ (64#32).toNat % 4 = 0 ∧ (64#32).toNat / 4 ≤ fresh.cfg.nmax) ∧
    ¬InRange fresh.cfg 0xFFFFFFF1 16 ∧ InRange fresh.cfg 0xFFFFFFF0 16 :=
  ⟨by decide, by decide, by decide, by decide, not_in_range (by decide), in_range (by decide)⟩
theorem witness_CBlocksizeCommand : fresh.c.valid = false ∧ ready.c.valid = true := by decide
theorem witness_CEncryptCommand :
    fresh.c.valid = false ∧ ready.c.valid = true ∧ (8#32 ≠ ready.c.bs ∧ 16#32 ≠ ready.c.bs) ∧
    12#32 = ready.c.bs ∧ ¬InRange ready.cfg 0xFFFFFFF5 ready.c.bs.toNat ∧
    InRange ready.cfg 0xFFFFFFF4 ready.c.bs.toNat :=
  ⟨by decide, by decide, by decide, by decide, not_in_range (by decide), in_range (by decide)⟩
theorem witness_CDecryptCommand :
    fresh.c.valid = false ∧ ready.c.valid = true ∧ (8#32 ≠ ready.c.bs ∧ 16#32 ≠ ready.c.bs) ∧
    12#32 = ready.c.bs ∧ ¬InRange ready.cfg 0xFFFFFFF5 ready.c.bs.toNat ∧
    InRange ready.cfg 0xFFFFFFF4 ready.c.bs.toNat :=
  ⟨by decide, by decide, by decide, by decide, not_in_range (by decide), in_range (by decide)⟩

theorem ready_inv : ready.inv = true := by decide
theorem wiped_inv : wiped.inv = true := by decide

theorem witness_StepKeepsInvariant :
    ready.inv = true ∧ (∃ t, step { ready with pending := [.command (allPorts 0x24)] } = .next t) ∧
    (∃ t, step { wiped with pending := [.reset] } = .next t) := ⟨ready_inv, ⟨_, rfl⟩, ⟨_, rfl⟩⟩
theorem witness_RefusedCommandChangesOnlyStatus :
    ∃ t, exec (.bEncrypt 0x20 8 0 8) wiped = .next t ∧ t.status ≠ .ok :=
  (of_holds (p := fun t => decide (t.status ≠ .ok)) (by decide)).imp fun _ h => ⟨h.1, by simpa using h.2⟩
theorem witness_EveryCommandCompletes : ∃ t, exec .bWipe ready = .next t ∧ t.status = .ok :=
  runs_of (by decide)
theorem witness_EnginesAreIsolated :
    (∃ t, exec .bWipe ready = .next t ∧ t.status = .ok) ∧ codeUnit Instr.bWipe.code ≠ 1#2 ∧
    codeUnit Instr.bWipe.code ≠ 3#2 ∧ codeUnit Instr.aBlocksize.code ≠ 2#2 := ⟨runs_of (by decide), by decide⟩
theorem witness_OnlyConstructWipeAndResetWriteEngines :
    let c : Command := { Command.ofCode 0x12 with dstAddr := 0x20, dstLen := 8, srcAddr := 0, srcLen := 8 }
    (∃ t, step { ready with pending := [.command c] } = .next t) ∧
    (∀ rest, [HostEvent.command c] ≠ .reset :: rest) ∧
    (∀ d rest, [HostEvent.command c] ≠ .resetDuring d :: rest) ∧
    (∀ (d : Command) rest, [HostEvent.command c] = .command d :: rest →
      decode ready.cfg d = .ok (.aEncrypt 0x20 8 0 8)) :=
  ⟨(of_holds (p := fun _ => true) (by decide)).imp fun _ h => h.1, by simp, by simp,
    by rintro d rest h; cases h; rfl⟩
theorem witness_CommandsWriteOnlyTheirDestination :
    ready.inv = true ∧ (∃ t, exec (.cEncrypt 4 12 0 12) ready = .next t ∧ t.status = .ok) ∧
    ¬(4 ≤ 3 ∧ 3 < 4 + 12) ∧ ¬(4 ≤ 16 ∧ 16 < 4 + 12) ∧ writesEngine .bWipe = true ∧
    (codeOp Instr.aBlocksize.code = 1#4 ∧ codeUnit Instr.aBlocksize.code ≠ 0#2) ∧
    (Instr.cdcB2w 0 0).code = 0x00#8 :=
  ⟨ready_inv, runs_of (by decide), by decide⟩
theorem witness_KeysAreNotObservableOnThePorts :
    ∃ t, exec (.aEncrypt 0x20 8 0 8) ready = .next t ∧ t.status = .ok := runs_of (by decide)
/-- Two states that differ in everything but the key and the block, with buffers at other places. -/
theorem witness_TransformsDependOnlyOnKeyAndBlock :
    let s' : State := { wiped with b := ready.b, mem := memWrite [] 0x100 seqBytes }
    ready.inv = true ∧ ready.a.k = s'.a.k ∧ ready.b.k = s'.b.k ∧ ready.c.k = s'.c.k ∧
    ready.c.bs = s'.c.bs ∧ memRead ready.mem 0 12 = memRead s'.mem 0x100 12 ∧
    (∃ t, exec (.aEncrypt 0x20 8 0 8) ready = .next t ∧ t.status = .ok) ∧
    (∃ t, exec (.aEncrypt 0x102 8 0x100 8) s' = .next t ∧ t.status = .ok) ∧
    (∃ t, exec (.bDecrypt 0x102 8 0x100 8) s' = .next t ∧ t.status = .ok) ∧
    (∃ t, exec (.cEncrypt 0x102 12 0x100 12) s' = .next t ∧ t.status = .ok) :=
  ⟨ready_inv, rfl, rfl, rfl, rfl, by decide, runs_of (by decide), runs_of (by decide),
    runs_of (by decide), runs_of (by decide)⟩
theorem witness_RawKeyBytesAreNeverRead :
    writesEngine (.bEncrypt 0x20 8 0 8) = false ∧
    ∃ t, exec (.bEncrypt 0x20 8 0 8) ready = .next t ∧ t.status = .ok := ⟨rfl, runs_of (by decide)⟩
/-- In place, and with a destination that overlaps the source by part. -/
theorem witness_TransformReadsWholeSourceFirst :
    ready.inv = true ∧ (∃ t, exec (.aEncrypt 0 8 0 8) ready = .next t ∧ t.status = .ok) ∧
    (∃ t, exec (.aDecrypt 4 8 0 8) ready = .next t ∧ t.status = .ok) ∧
    (∃ t, exec (.bEncrypt 4 8 0 8) ready = .next t ∧ t.status = .ok) ∧
    (∃ t, exec (.bDecrypt 0 8 4 8) ready = .next t ∧ t.status = .ok) ∧
    (∃ t, exec (.cEncrypt 4 12 0 12) ready = .next t ∧ t.status = .ok) ∧
    (∃ t, exec (.cDecrypt 0 12 0 12) ready = .next t ∧ t.status = .ok) :=
  ⟨ready_inv, runs_of (by decide), runs_of (by decide), runs_of (by decide), runs_of (by decide),
    runs_of (by decide), runs_of (by decide)⟩
theorem decrypts_after {i j : Instr} {s : State} (h : firstFailure (checksOf s i) = none)
    (h' : firstFailure (checksOf (effectOf s i) j) = none) :
    ∃ t u, exec i s = .next t ∧ exec j t = .next u ∧ t.status = .ok ∧ u.status = .ok :=
  ⟨effectOf s i, effectOf (effectOf s i) j, exec_of_checks_pass h, exec_of_checks_pass h',
    status_effectOf _ _, status_effectOf _ _⟩
theorem witness_DecryptCommandUndoesEncryptCommand :
    ready.inv = true ∧
    (∃ t u, exec (.aEncrypt 4 8 0 8) ready = .next t ∧ exec (.aDecrypt 4 8 4 8) t = .next u ∧
      t.status = .ok ∧ u.status = .ok) ∧
    (∃ t u, exec (.bEncrypt 4 8 0 8) ready = .next t ∧ exec (.bDecrypt 0 8 4 8) t = .next u ∧
      t.status = .ok ∧ u.status = .ok) ∧
    (∃ t u, exec (.cEncrypt 4 12 0 12) ready = .next t ∧ exec (.cDecrypt 8 12 4 12) t = .next u ∧
      t.status = .ok ∧ u.status = .ok) :=
  ⟨ready_inv, decrypts_after (by decide) (by decide), decrypts_after (by decide) (by decide),
    decrypts_after (by decide) (by decide)⟩
theorem witness_CommandsIssuedTwiceGiveTheSame :
    ready.inv = true ∧ (∃ t, exec (.bConstruct 0 16) ready = .next t ∧ t.status = .ok) ∧
    (Instr.bConstruct 0 16).format ≠ .x ∧
    (∃ t, exec (.aEncrypt 8 8 0 8) ready = .next t ∧ t.status = .ok) ∧
    disjointBuffers 0 (destination ready (.aEncrypt 8 8 0 8)).2 8 (destination ready (.aEncrypt 8 8 0 8)).2 ∧
    (∃ t u, exec (.cDecrypt 0 12 0 12) ready = .next t ∧ exec (.cDecrypt 0 12 0 12) t = .next u ∧
      t.status = .ok ∧ u.status = .ok) :=
  ⟨ready_inv, runs_of (by decide), by decide, runs_of (by decide), Or.inl (by decide),
    decrypts_after (by decide) (by decide)⟩

end Sys2Proof.Tests
end

namespace Sys2Proof.Machine

/-! ## What a command's checks and its completion on the ports depend on

Key material occurs in no check, and the effects use it only for the bytes they store in `M`. So two
states that agree on everything in `SameBesideKeys` give the host the same `STATUS`, `INFO`, `RESULT` and
`WORDS_OUT` (00_scope.md R17, 30_encoding.md R75). -/

/-- The states agree on the parameters, on `M`, and on every engine register but the key words and key
bytes: the two flags `valid` and `wiped` (10_state.md R31) and `C.BS`. -/
structure SameBesideKeys (s s' : State) : Prop where
  cfg : s.cfg = s'.cfg
  mem : s.mem = s'.mem
  aValid : s.a.valid = s'.a.valid
  bValid : s.b.valid = s'.b.valid
  bWiped : s.b.wiped = s'.b.wiped
  cValid : s.c.valid = s'.c.valid
  cBs : s.c.bs = s'.c.bs

theorem checksOf_congr {s s' : State} (h : SameBesideKeys s s') (i : Instr) :
    checksOf s i = checksOf s' i := by
  obtain ⟨hcfg, -, ha, hb, hw, hc, hbs⟩ := h
  cases i <;> simp only [checksOf, hcfg, ha, hb, hw, hc, hbs]

@[simp] theorem observe_answered (s : State) (st : Status) (info : Word) :
    (s.answered st info).observe = ⟨st, info, none, none⟩ := rfl

@[simp] theorem observe_complete (s : State) : (complete s).observe = ⟨.ok, 0, none, none⟩ := rfl

@[simp] theorem observe_completeResult (v : Word) (s : State) :
    (completeResult v s).observe = ⟨.ok, 0, some v, none⟩ := rfl

@[simp] theorem observe_completeWords (ws : List Word) (s : State) :
    (completeWords ws s).observe = ⟨.ok, 0, none, some ws⟩ := rfl

@[simp] theorem observe_storeAndComplete (x : Nat) (bs : List Byte) (s : State) :
    (storeAndComplete x bs s).observe = ⟨.ok, 0, none, none⟩ := rfl

/-- Beside `OK`, only `CDC.B2W` shows bytes of `M` and only `C.BLOCKSIZE` shows a register. -/
theorem observe_effectOf_congr {s s' : State} (hmem : s.mem = s'.mem) (hbs : s.c.bs = s'.c.bs)
    (i : Instr) : (effectOf s i).observe = (effectOf s' i).observe := by
  cases i
  case cdcB2w => simp only [effectOf, observe_completeWords, hmem]
  case cBlocksize => simp only [effectOf, observe_completeResult, hbs]
  case aBlocksize | bBlocksize => simp only [effectOf, observe_completeResult]
  case aConstruct | bConstruct | bWipe | cConstruct => simp only [effectOf, observe_complete]
  case cdcW2b | aEncrypt | aDecrypt | bEncrypt | bDecrypt | cEncrypt | cDecrypt =>
    simp only [effectOf, observe_storeAndComplete]

theorem observe_outcomeOf_congr {s s' : State} (h : SameBesideKeys s s') (i : Instr) :
    (outcomeOf s i).observe = (outcomeOf s' i).observe := by
  unfold outcomeOf
  rw [checksOf_congr h i]
  cases firstFailure (checksOf s' i) with
  | some c => simp only [observe_answered]
  | none => exact observe_effectOf_congr h.mem h.cBs i

/-- Settles O55: a state with other key material agrees with the old one on all that the checks and the
ports depend on. -/
theorem keysAreNotObservableOnThePorts : Obligations.KeysAreNotObservableOnThePorts := by
  unfold Obligations.KeysAreNotObservableOnThePorts
  intro i s t ka kb kc kbytes h
  obtain rfl : outcomeOf s i = t := Host.Outcome.next.inj ((exec_eq_outcomeOf i s).symm.trans h)
  refine ⟨_, exec_eq_outcomeOf i _, observe_outcomeOf_congr ?_ i⟩
  constructor <;> rfl

end Sys2Proof.Machine

namespace Sys2Proof.Machine

/-! ## The step, taken apart

What an accepted command, a host access and a step can end in, said once for the statements of
10_state.md. -/

/-- An accepted command either answers a status other than `OK` (60_exceptions.md R178) or decodes, passes
all its checks and has its effect. -/
theorem runCommand_cases {c : Command} {s t : State} (h : runCommand c s = .next t) :
    (∃ st info, st ≠ .ok ∧ t = s.answered st info) ∨
    (∃ i, decode s.cfg c = .ok i ∧ firstFailure (checksOf s i) = none ∧ t = effectOf s i) := by
  unfold runCommand at h
  cases hd : decode s.cfg c with
  | error e =>
    rw [hd] at h
    cases h
    exact Or.inl ⟨.illegalCommand, _, by decide, rfl⟩
  | ok i =>
    rw [hd] at h
    obtain ⟨hpass, ht⟩ | ⟨ck, -, hst, ht⟩ := exec_cases h
    · exact Or.inr ⟨i, rfl, hpass, ht⟩
    · exact Or.inl ⟨ck.status, ck.info, hst, ht⟩

theorem hostWrite_next {a : Nat} {bytes : List Byte} {s t : State}
    (h : hostWrite a bytes s = .next t) :
    InRange s.cfg a bytes.length ∧ t = { s with mem := memWrite s.mem a bytes } := by
  unfold hostWrite at h
  split at h
  next hr => cases h; exact ⟨(inRange_iff ..).mp hr, rfl⟩
  next => cases h

/-- A host read changes nothing (20_memory.md R52). -/
theorem hostRead_next {r : HostRead} {s t : State} (h : hostRead r s = .next t) : t = s := by
  cases r with
  | status | info => cases h; rfl
  | result | wordsOut | memory =>
    simp only [hostRead] at h
    split at h
    · cases h; rfl
    · cases h

theorem step_cases {s t : State} (h : step s = .next t) :
    t = s ∨ (∃ e rest, s.pending = e :: rest ∧
      handleEvent e { s with pending := rest, tick := s.tick + 1 } = .next t) := by
  unfold step at h
  cases hp : s.pending with
  | nil => rw [hp] at h; cases h; exact Or.inl rfl
  | cons e rest => rw [hp] at h; exact Or.inr ⟨e, rest, rfl, h⟩

/-! ## Who writes engine registers (10_state.md R32) -/

theorem a_effectOf_of_ne {i : Instr} (s : State)
    (h : ∀ keyAddr keyLen, i ≠ .aConstruct keyAddr keyLen) : (effectOf s i).a = s.a := by
  cases i with
  | aConstruct keyAddr keyLen => exact absurd rfl (h keyAddr keyLen)
  | _ => rfl

theorem b_effectOf_of_ne {i : Instr} (s : State)
    (h : ∀ keyAddr keyLen, i ≠ .bConstruct keyAddr keyLen) (hw : i ≠ .bWipe) :
    (effectOf s i).b = s.b := by
  cases i with
  | bConstruct keyAddr keyLen => exact absurd rfl (h keyAddr keyLen)
  | bWipe => exact absurd rfl hw
  | _ => rfl

theorem c_effectOf_of_ne {i : Instr} (s : State)
    (h : ∀ keyAddr keyLen blockSize, i ≠ .cConstruct keyAddr keyLen blockSize) :
    (effectOf s i).c = s.c := by
  cases i with
  | cConstruct keyAddr keyLen blockSize => exact absurd rfl (h keyAddr keyLen blockSize)
  | _ => rfl

/-- A step that is no reset keeps all three engines, or it has the effect of a command. -/
theorem step_keeps_engines_or_effect {s t : State} (h : step s = .next t)
    (hreset : ∀ rest, s.pending ≠ .reset :: rest)
    (hduring : ∀ c rest, s.pending ≠ .resetDuring c :: rest) :
    (t.a = s.a ∧ t.b = s.b ∧ t.c = s.c) ∨
    (∃ c rest i, s.pending = .command c :: rest ∧ decode s.cfg c = .ok i ∧
      t = effectOf { s with pending := rest, tick := s.tick + 1 } i) := by
  obtain rfl | ⟨e, rest, hp, he⟩ := step_cases h
  · exact Or.inl ⟨rfl, rfl, rfl⟩
  cases e with
  | command c =>
    obtain ⟨st, info, -, rfl⟩ | ⟨i, hd, -, ht⟩ := runCommand_cases he
    · exact Or.inl ⟨rfl, rfl, rfl⟩
    · exact Or.inr ⟨c, rest, i, hp, hd, ht⟩
  | write a bytes => obtain ⟨-, rfl⟩ := hostWrite_next he; exact Or.inl ⟨rfl, rfl, rfl⟩
  | read r => obtain rfl := hostRead_next he; exact Or.inl ⟨rfl, rfl, rfl⟩
  | reset => exact absurd hp (hreset rest)
  | resetDuring c => exact absurd hp (hduring c rest)

/-- Settles O53: a step that is no reset and changes an engine has the effect of a command, and each
engine's registers are in the effect of its own writers only. -/
theorem onlyConstructWipeAndResetWriteEngines :
    Obligations.OnlyConstructWipeAndResetWriteEngines := by
  unfold Obligations.OnlyConstructWipeAndResetWriteEngines
  intro s t h hreset hduring
  obtain ⟨ha, hb, hc⟩ | ⟨c, rest, i, hp, hd, rfl⟩ := step_keeps_engines_or_effect h hreset hduring
  · exact ⟨fun _ => ha, fun _ => hb, fun _ => hc⟩
  refine ⟨fun hn => a_effectOf_of_ne _ ?_, fun hn => b_effectOf_of_ne _ ?_ ?_,
    fun hn => c_effectOf_of_ne _ ?_⟩
  · rintro keyAddr keyLen rfl
    exact hn c rest keyAddr keyLen hp hd
  · rintro keyAddr keyLen rfl
    exact (hn c rest keyAddr keyLen hp).1 hd
  · rintro rfl
    exact (hn c rest 0 0 hp).2 hd
  · rintro keyAddr keyLen blockSize rfl
    exact hn c rest keyAddr keyLen blockSize hp hd

/-! ## What a command does not depend on (10_state.md R21, R29) -/

/-- If a change `f` of the state reaches none of a command's checks and passes through its effect and
through its refusals unread, it passes through the command. -/
theorem exec_of_commutes {f : State → State} {i : Instr} {s s' t : State} (h : exec i s = .next t)
    (hchecks : checksOf s' i = checksOf s i)
    (hanswered : ∀ st info, s'.answered st info = f (s.answered st info))
    (heffect : effectOf s' i = f (effectOf s i)) : exec i s' = .next (f t) := by
  obtain ⟨hpass, rfl⟩ | ⟨c, hfail, -, rfl⟩ := exec_cases h
  · rw [exec_of_checks_pass (hchecks ▸ hpass), heffect]
  · rw [exec_of_firstFailure (hchecks ▸ hfail), hanswered]

theorem exec_withA {i : Instr} {s t : State} (hunit : codeUnit i.code ≠ 1#2)
    (h : exec i s = .next t) (a' : EngineA) :
    exec i { s with a := a' } = .next { t with a := a' } := by
  obtain ⟨hchecks, heffect⟩ : checksOf { s with a := a' } i = checksOf s i ∧
      effectOf { s with a := a' } i = { effectOf s i with a := a' } := by
    cases i with
    | aConstruct | aBlocksize | aEncrypt | aDecrypt => simp [Instr.code, codeUnit] at hunit
    | _ => exact ⟨rfl, rfl⟩
  exact exec_of_commutes (f := fun u => { u with a := a' }) h hchecks (fun _ _ => rfl) heffect

theorem exec_withB {i : Instr} {s t : State} (hunit : codeUnit i.code ≠ 2#2)
    (h : exec i s = .next t) (b' : EngineB) :
    exec i { s with b := b' } = .next { t with b := b' } := by
  obtain ⟨hchecks, heffect⟩ : checksOf { s with b := b' } i = checksOf s i ∧
      effectOf { s with b := b' } i = { effectOf s i with b := b' } := by
    cases i with
    | bConstruct | bBlocksize | bEncrypt | bDecrypt | bWipe => simp [Instr.code, codeUnit] at hunit
    | _ => exact ⟨rfl, rfl⟩
  exact exec_of_commutes (f := fun u => { u with b := b' }) h hchecks (fun _ _ => rfl) heffect

theorem exec_withC {i : Instr} {s t : State} (hunit : codeUnit i.code ≠ 3#2)
    (h : exec i s = .next t) (c' : EngineC) :
    exec i { s with c := c' } = .next { t with c := c' } := by
  obtain ⟨hchecks, heffect⟩ : checksOf { s with c := c' } i = checksOf s i ∧
      effectOf { s with c := c' } i = { effectOf s i with c := c' } := by
    cases i with
    | cConstruct | cBlocksize | cEncrypt | cDecrypt => simp [Instr.code, codeUnit] at hunit
    | _ => exact ⟨rfl, rfl⟩
  exact exec_of_commutes (f := fun u => { u with c := c' }) h hchecks (fun _ _ => rfl) heffect

theorem exec_unique {i : Instr} {s t u : State} (ht : exec i s = .next t) (hu : exec i s = .next u) :
    t = u := Host.Outcome.next.inj (ht.symm.trans hu)

/-- Settles O51: other registers in an engine the code does not select pass through the command. That the
command keeps them is the case where they are the engine's own: its one next state is then also the one
with those registers put back. -/
theorem enginesAreIsolated : Obligations.EnginesAreIsolated := by
  unfold Obligations.EnginesAreIsolated
  intro i s t h
  refine ⟨fun hunit => ⟨?_, exec_withA hunit h⟩, fun hunit => ⟨?_, exec_withB hunit h⟩,
    fun hunit => ⟨?_, exec_withC hunit h⟩⟩
  · rw [exec_unique h (exec_withA hunit h s.a)]
  · rw [exec_unique h (exec_withB hunit h s.b)]
  · rw [exec_unique h (exec_withC hunit h s.c)]

/-- Settles O52: no check reads the completion registers, and every completion writes all four. -/
theorem previousCompletionIsNeverRead : Obligations.PreviousCompletionIsNeverRead := by
  unfold Obligations.PreviousCompletionIsNeverRead
  intro i s status info result wordsOut
  rw [exec_eq_outcomeOf i s]
  refine exec_of_commutes (f := id) (exec_eq_outcomeOf i s) ?_ (fun _ _ => rfl) ?_
  · cases i <;> rfl
  · cases i <;> rfl

/-! ## The key bytes and the key words (10_state.md R25) -/

theorem flatten_memReadKey (m : Memory) (a : Nat) :
    ((memReadKey m a).toList.map Quad.toList).flatten = memRead m a 16 := rfl

theorem toNat_beDecode (q : Quad Byte) :
    (beDecode q).toNat
      = q.x0.toNat * 2 ^ 24 + q.x1.toNat * 2 ^ 16 + q.x2.toNat * 2 ^ 8 + q.x3.toNat := by
  have happend : ∀ {n : Nat} (x : BitVec n) (y : Byte), (x ++ y).toNat = x.toNat * 2 ^ 8 + y.toNat := by
    intro n x y
    rw [BitVec.toNat_append, ← Nat.shiftLeft_add_eq_or_of_lt y.isLt, Nat.shiftLeft_eq]
  unfold beDecode
  rw [happend, happend, happend]
  omega

theorem get_keyWords_memReadKey (m : Memory) (a : Nat) {i : Nat} (h : i < 4) :
    (keyWords (memReadKey m a)).get (BitVec.ofNat 2 i) = beDecode (memReadQuad m (a + 4 * i)) := by
  interval_cases i <;> rfl

/-- Settles O19: key word `i` decodes the group at `a + 4i`, and the four groups in order are the sixteen
bytes at `a`. -/
theorem keyWordsComeFromKeyBytesInOrder : Obligations.KeyWordsComeFromKeyBytesInOrder := by
  unfold Obligations.KeyWordsComeFromKeyBytesInOrder
  intro m a i hi
  refine ⟨?_, flatten_memReadKey m a⟩
  rw [get_keyWords_memReadKey m a hi, toNat_beDecode]
  rfl

/-! ## The invariant (10_state.md R23, R24, R29; 20_memory.md R50; 30_encoding.md R75) -/

/-- The parts of `State.inv` by name. -/
structure State.Invariant (s : State) : Prop where
  cfg : s.cfg.wf = true
  a : s.a.inv = true
  b : s.b.inv = true
  c : s.c.inv s.cfg = true
  ports : s.portsInv = true
  memWf : s.mem.wf = true
  memWithin : s.mem.within s.cfg = true

theorem inv_iff (s : State) : s.inv = true ↔ s.Invariant := by
  simp only [State.inv, Bool.and_eq_true]
  constructor
  · rintro ⟨⟨⟨⟨⟨⟨hcfg, ha⟩, hb⟩, hc⟩, hports⟩, hwf⟩, hwithin⟩
    exact ⟨hcfg, ha, hb, hc, hports, hwf, hwithin⟩
  · rintro ⟨hcfg, ha, hb, hc, hports, hwf, hwithin⟩
    exact ⟨⟨⟨⟨⟨⟨hcfg, ha⟩, hb⟩, hc⟩, hports⟩, hwf⟩, hwithin⟩

/-! ### Reset -/

theorem inv_resetCore {s : State} (hcfg : s.cfg.wf = true) (hwf : s.mem.wf = true)
    (hwithin : s.mem.within s.cfg = true) : (resetCore s).Invariant where
  cfg := hcfg
  a := rfl
  b := by rw [resetCore_b]; decide
  c := rfl
  ports := rfl
  memWf := hwf
  memWithin := hwithin

theorem wf_standard : Config.standard.wf = true := by
  simp [Config.wf, Config.standard]

/-- Settles O47: the reset state is what the reset event makes of itself. -/
theorem invariantHoldsAtReset : Obligations.InvariantHoldsAtReset :=
  (inv_iff State.reset).mpr (inv_resetCore (s := State.reset) wf_standard rfl rfl)

/-- Settles O10: each register at its value of 10_state.md R33; the sixteen key bytes are sixteen
zeros. -/
theorem resetStateHoldsTheSpecValues : Obligations.ResetStateHoldsTheSpecValues := by
  unfold Obligations.ResetStateHoldsTheSpecValues
  refine ⟨rfl, rfl, ?_, rfl, rfl, rfl, rfl, rfl, rfl⟩
  intro j hj
  have hbytes : (State.reset.b.kb.toList.map Quad.toList).flatten = List.replicate 16 0 := rfl
  rw [hbytes, List.getElem?_replicate, if_pos hj]

/-! ### The engines -/

@[simp] theorem inv_constructA (key : Quad (Quad Byte)) : (EngineA.construct key).inv = true := rfl

@[simp] theorem inv_constructB (key : Quad (Quad Byte)) : (EngineB.construct key).inv = true := by
  simp [EngineB.inv, EngineB.construct]

/-- Only an engine that has been constructed can be wiped; `B.K` then agrees with the zeros in `B.KB`. -/
theorem inv_wipe {b : EngineB} (hvalid : b.valid = true) : b.wipe.inv = true := by
  have hzero : keyWords zeroKey = ⟨0, 0, 0, 0⟩ := by decide
  simp [EngineB.inv, EngineB.wipe, hvalid, hzero]

theorem inv_iff_of_validC {cfg : Config} {c : EngineC} (hvalid : c.valid = true) :
    c.inv cfg = true ↔ 8 ≤ c.bs.toNat ∧ c.bs.toNat % 4 = 0 ∧ c.bs.toNat / 4 ≤ cfg.nmax := by
  simp only [EngineC.inv, hvalid, if_true, Bool.and_eq_true, decide_eq_true_eq]
  rw [and_comm (a := c.bs.toNat % 4 = 0), and_assoc]

theorem blockSizeCheck_pass_iff (cfg : Config) (blockSize : Word) :
    (blockSizeCheck cfg blockSize).fails = false ↔
      8 ≤ blockSize.toNat ∧ blockSize.toNat % 4 = 0 ∧ blockSize.toNat / 4 ≤ cfg.nmax := by
  have hmin : blockSizeMinC = 8 := rfl
  simp only [blockSizeCheck, Bool.or_eq_false_iff, decide_eq_false_iff_not]
  omega

/-- The block sizes `C.CONSTRUCT` accepts are the legal ones (10_state.md R24). -/
theorem inv_constructC {cfg : Config} {blockSize : Word} (key : Quad (Quad Byte))
    (h : (blockSizeCheck cfg blockSize).fails = false) :
    (EngineC.construct key blockSize).inv cfg = true :=
  (inv_iff_of_validC rfl).mpr ((blockSizeCheck_pass_iff cfg blockSize).mp h)

/-! ### Where a command stores (20_memory.md R51) -/

theorem bound_of_rangeCheck {which : Word} {cfg : Config} {a len : Nat}
    (h : (rangeCheck which cfg a len).fails = false) : a + len ≤ 2 ^ cfg.xaddr := by
  have hr : inRange cfg a len = true := by simpa [rangeCheck] using h
  exact ((inRange_iff cfg a len).mp hr).1

/-- What a command does to `M` is one `MemWrite` of no more bytes than its destination has; for a
command that stores nothing it is the empty one. -/
theorem mem_effectOf (s : State) (i : Instr) :
    ∃ bytes, bytes.length ≤ (destination s i).2 ∧
      (effectOf s i).mem = memWrite s.mem (destination s i).1 bytes := by
  cases i with
  | cdcW2b => exact ⟨_, by simp [destination], rfl⟩
  | aEncrypt | aDecrypt | bEncrypt | bDecrypt => exact ⟨_, by simp [destination, blockSizeAB], rfl⟩
  | cEncrypt =>
    refine ⟨_, ?_, rfl⟩
    simp only [destination, length_cEncryptBlock, length_memRead]
    omega
  | cDecrypt =>
    refine ⟨_, ?_, rfl⟩
    simp only [destination, length_cDecryptBlock, length_memRead]
    omega
  | _ => exact ⟨[], Nat.le_refl 0, rfl⟩

/-- The destination of a command whose checks all pass lies in the address space. -/
theorem destination_fits {s : State} {i : Instr} (h : firstFailure (checksOf s i) = none) :
    (destination s i).1 + (destination s i).2 ≤ 2 ^ s.cfg.xaddr := by
  have hpass := firstFailure_none h
  cases i with
  | cdcW2b dstAddr dstLen count wordsIn =>
    have hlen : (coversWordsCheck dstLen count).fails = false := hpass _ (by simp [checksOf])
    have hfits := bound_of_rangeCheck
      (hpass (rangeCheck 2 s.cfg dstAddr dstLen.toNat) (by simp [checksOf]))
    simp only [coversWordsCheck, Bool.or_eq_false_iff, decide_eq_false_iff_not] at hlen
    simp only [destination]
    omega
  | aEncrypt dstAddr | aDecrypt dstAddr | bEncrypt dstAddr | bDecrypt dstAddr =>
    exact bound_of_rangeCheck
      (hpass (rangeCheck 2 s.cfg dstAddr blockSizeAB) (by simp [checksOf, transformChecks]))
  | cEncrypt dstAddr | cDecrypt dstAddr =>
    exact bound_of_rangeCheck
      (hpass (rangeCheck 2 s.cfg dstAddr s.c.bs.toNat) (by simp [checksOf, transformChecks]))
  | _ => exact Nat.zero_le _

/-! ### Every step keeps it -/

theorem portsInv_answered (s : State) {st : Status} (info : Word) (h : st ≠ .ok) :
    (s.answered st info).portsInv = true := by
  simp [State.portsInv, h]

theorem portsInv_effectOf (s : State) (i : Instr) : (effectOf s i).portsInv = true := by
  cases i <;> rfl

/-- The invariant speaks of the parameters, the engines, `M` and the completion, so a refusal keeps it. -/
theorem inv_answered {s : State} {st : Status} (info : Word) (h : s.Invariant) (hst : st ≠ .ok) :
    (s.answered st info).Invariant :=
  { h with ports := portsInv_answered s info hst }

theorem inv_effectOf {s : State} {i : Instr} (h : s.Invariant)
    (hpass : firstFailure (checksOf s i) = none) : (effectOf s i).Invariant where
  cfg := by rw [cfg_effectOf]; exact h.cfg
  a := by
    cases i with
    | aConstruct => exact inv_constructA _
    | _ => exact h.a
  b := by
    cases i with
    | bConstruct => exact inv_constructB _
    | bWipe =>
      have hvalid := firstFailure_none hpass (instanceCheck s.b.valid) (by simp [checksOf])
      exact inv_wipe (by simpa [instanceCheck] using hvalid)
    | _ => exact h.b
  c := by
    rw [cfg_effectOf]
    cases i with
    | cConstruct _ _ blockSize =>
      exact inv_constructC _
        (firstFailure_none hpass (blockSizeCheck s.cfg blockSize) (by simp [checksOf]))
    | _ => exact h.c
  ports := portsInv_effectOf s i
  memWf := by
    obtain ⟨bytes, -, hmem⟩ := mem_effectOf s i
    rw [hmem]
    exact memWrite_wf _ bytes h.memWf
  memWithin := by
    obtain ⟨bytes, hlen, hmem⟩ := mem_effectOf s i
    have hfits := destination_fits hpass
    rw [hmem, cfg_effectOf]
    exact memWrite_within (by omega) h.memWithin

@[simp] theorem cfg_outcomeOf (s : State) (i : Instr) : (outcomeOf s i).cfg = s.cfg := by
  unfold outcomeOf
  split
  · rfl
  · exact cfg_effectOf s i

theorem outcomeOf_keeps_inv {s : State} (h : s.Invariant) (i : Instr) : (outcomeOf s i).Invariant := by
  obtain ⟨hpass, ht⟩ | ⟨c, -, hst, ht⟩ := exec_cases (exec_eq_outcomeOf i s)
  · rw [ht]; exact inv_effectOf h hpass
  · rw [ht]; exact inv_answered c.info h hst

theorem runCommand_keeps_inv {c : Command} {s t : State} (h : s.Invariant)
    (hrun : runCommand c s = .next t) : t.Invariant := by
  obtain ⟨st, info, hst, rfl⟩ | ⟨i, -, hpass, rfl⟩ := runCommand_cases hrun
  · exact inv_answered info h hst
  · exact inv_effectOf h hpass

/-- An aborted command leaves a mix of `M` before and of `M` as its completion would have left it, and both
are canonical and inside the address space (70_reset_and_hazards.md R201). -/
theorem abortedMemory_wf_within {s : State} (h : s.Invariant) (i : Instr) :
    (abortedMemory i s).wf = true ∧ (abortedMemory i s).within s.cfg = true := by
  have hnew := outcomeOf_keeps_inv h i
  have hcfg := cfg_outcomeOf s i
  simp only [abortedMemory, exec_eq_outcomeOf]
  exact ⟨mixBytes_wf _ _ _ _ h.memWf, mixBytes_within _ _ (hcfg ▸ hnew.memWithin) h.memWithin⟩

theorem resetDuringCommand_keeps_inv {s : State} (h : s.Invariant) (c : Command) :
    (resetDuringCommand c s).Invariant := by
  unfold resetDuringCommand
  split
  · exact inv_resetCore h.cfg h.memWf h.memWithin
  next i _ =>
    obtain ⟨hwf, hwithin⟩ := abortedMemory_wf_within h i
    exact inv_resetCore h.cfg hwf hwithin

theorem handleEvent_keeps_inv {e : HostEvent} {s t : State} (h : s.Invariant)
    (he : handleEvent e s = .next t) : t.Invariant := by
  cases e with
  | command c => exact runCommand_keeps_inv h he
  | write a bytes =>
    obtain ⟨hrange, rfl⟩ := hostWrite_next he
    exact { h with
      memWf := memWrite_wf a bytes h.memWf
      memWithin := memWrite_within hrange.1 h.memWithin }
  | read r => obtain rfl := hostRead_next he; exact h
  | reset => cases he; exact inv_resetCore h.cfg h.memWf h.memWithin
  | resetDuring c => cases he; exact resetDuringCommand_keeps_inv h c

/-- Settles O48: taking the event off `pending` touches nothing the invariant speaks of, and handling it
keeps the invariant, whichever event it is. -/
theorem stepKeepsInvariant : Obligations.StepKeepsInvariant := by
  unfold Obligations.StepKeepsInvariant
  intro s t hs h
  obtain rfl | ⟨e, rest, -, he⟩ := step_cases h
  · exact hs
  · have htaken : ({ s with pending := rest, tick := s.tick + 1 } : State).inv = true := hs
    exact (inv_iff t).mpr (handleEvent_keeps_inv ((inv_iff _).mp htaken) he)

end Sys2Proof.Machine

namespace Sys2Proof.Machine

/-! ## Reading and writing `M` (20_memory.md R52, R53, R57) -/

/-- Settles O15: byte by byte, inside and outside the buffer. -/
theorem memReadAndMemWriteMoveExactlyTheirBytes :
    Obligations.MemReadAndMemWriteMoveExactlyTheirBytes := by
  unfold Obligations.MemReadAndMemWriteMoveExactlyTheirBytes
  refine ⟨fun m a len => ⟨length_memRead m a len, fun i hi => ?_⟩,
    fun m a bs => ⟨fun i hi => ?_, fun x hx => read_memWrite_outside hx, rfl⟩⟩
  · have hlen : i < (memRead m a len).length := by rwa [length_memRead]
    rw [List.getElem?_eq_getElem hlen, getElem_memRead hlen]
  · rw [read_memWrite_inside hi, List.getElem?_eq_getElem hi]

theorem hostWrite_of_inRange {a : Nat} {bytes : List Byte} {s : State}
    (h : InRange s.cfg a bytes.length) :
    hostWrite a bytes s = .next { s with mem := memWrite s.mem a bytes } :=
  if_pos ((inRange_iff ..).mpr h)

theorem step_of_pending {s : State} {e : HostEvent} {rest : List HostEvent}
    (h : s.pending = e :: rest) :
    step s = handleEvent e { s with pending := rest, tick := s.tick + 1 } := by
  unfold step
  rw [h]

/-- Settles O13: an in-range host write is one `MemWrite`. -/
theorem hostWriteIsSeenAndTouchesNothingElse :
    Obligations.HostWriteIsSeenAndTouchesNothingElse := by
  unfold Obligations.HostWriteIsSeenAndTouchesNothingElse
  intro s a bytes rest hpending hrange
  refine ⟨memWrite s.mem a bytes, ?_, memRead_memWrite_same s.mem a bytes,
    fun x hx => read_memWrite_outside hx⟩
  rw [step_of_pending hpending]
  exact hostWrite_of_inRange hrange

/-! ## What a command writes (20_memory.md R51) -/

theorem read_effectOf_outside {s : State} {i : Instr} {x : Nat}
    (h : ¬((destination s i).1 ≤ x ∧ x < (destination s i).1 + (destination s i).2)) :
    (effectOf s i).mem.read x = s.mem.read x := by
  obtain ⟨bytes, hlen, hmem⟩ := mem_effectOf s i
  rw [hmem]
  exact read_memWrite_outside (by omega)

theorem mem_effectOf_of_empty_destination {s : State} {i : Instr} (h : (destination s i).2 = 0) :
    (effectOf s i).mem = s.mem := by
  obtain ⟨bytes, hlen, hmem⟩ := mem_effectOf s i
  rw [h, Nat.le_zero, List.length_eq_zero_iff] at hlen
  rw [hmem, hlen]
  rfl

/-- `CONSTRUCT`, `B.WIPE`, `BLOCKSIZE` and `CDC.B2W` have no destination. -/
theorem destination_empty {i : Instr} (s : State)
    (h : writesEngine i = true ∨ codeOp i.code = 1#4 ∧ codeUnit i.code ≠ 0#2 ∨ i.code = 0x00#8) :
    (destination s i).2 = 0 := by
  cases i with
  | cdcW2b | aEncrypt | aDecrypt | bEncrypt | bDecrypt | cEncrypt | cDecrypt =>
    simp [writesEngine, Instr.code, codeOp, codeUnit] at h
  | _ => rfl

/-- Settles O54: a refused command keeps `M`, and the effect of any other is one `MemWrite` inside its
destination, which is empty for the commands that store nothing. -/
theorem commandsWriteOnlyTheirDestination : Obligations.CommandsWriteOnlyTheirDestination := by
  unfold Obligations.CommandsWriteOnlyTheirDestination
  intro i s t _ h
  obtain ⟨-, rfl⟩ | ⟨c, -, -, rfl⟩ := exec_cases h
  · exact ⟨fun x hx => read_effectOf_outside fun hin => hx ⟨status_effectOf s i, hin⟩,
      fun hnone => mem_effectOf_of_empty_destination (destination_empty s hnone)⟩
  · exact ⟨fun _ _ => rfl, fun _ => rfl⟩

/-! ## The six transforms as one (20_memory.md R58)

A command of format `X` reads a block of its destination's length at its source address, applies its
engine's block function, and stores the result at its destination: one shape for the six of them. -/

/-- Where a transform reads its block; 0, and unused, for any other command. -/
def sourceAddr : Instr → Nat
  | .aEncrypt _ _ srcAddr _ | .aDecrypt _ _ srcAddr _ | .bEncrypt _ _ srcAddr _
  | .bDecrypt _ _ srcAddr _ | .cEncrypt _ _ srcAddr _ | .cDecrypt _ _ srcAddr _ => srcAddr
  | _ => 0

/-- What a transform makes of its block, with the registers of its engine; unused for any other
command. -/
def blockFunction (s : State) : Instr → List Byte → List Byte
  | .aEncrypt _ _ _ _ => aEncryptBlock s.a.k
  | .aDecrypt _ _ _ _ => aDecryptBlock s.a.k
  | .bEncrypt _ _ _ _ => bEncryptBlock s.b.k
  | .bDecrypt _ _ _ _ => bDecryptBlock s.b.k
  | .cEncrypt _ _ _ _ => cEncryptBlock s.c.k (s.c.bs.toNat / 4)
  | .cDecrypt _ _ _ _ => cDecryptBlock s.c.k (s.c.bs.toNat / 4)
  | _ => id

/-- The block a transform reads. -/
def sourceBlock (s : State) (i : Instr) : List Byte :=
  memRead s.mem (sourceAddr i) (destination s i).2

theorem effectOf_transform {i : Instr} (s : State) (hi : i.format = .x) :
    effectOf s i = storeAndComplete (destination s i).1 (blockFunction s i (sourceBlock s i)) s := by
  cases i with
  | aEncrypt | aDecrypt | bEncrypt | bDecrypt | cEncrypt | cDecrypt => rfl
  | _ => cases hi

/-- Also when engine C was never constructed: `C.BS` is then 0. -/
theorem bs_mod_four {s : State} (hs : s.Invariant) : s.c.bs.toNat % 4 = 0 := by
  have hc := hs.c
  cases hvalid : s.c.valid with
  | true => exact ((inv_iff_of_validC hvalid).mp hc).2.1
  | false =>
    obtain ⟨-, hbs⟩ : s.c.k = ⟨0, 0, 0, 0⟩ ∧ s.c.bs = 0 := by simpa [EngineC.inv, hvalid] using hc
    rw [hbs]
    rfl

theorem length_blockFunction {s : State} {i : Instr} (hs : s.Invariant) (hi : i.format = .x) :
    (blockFunction s i (sourceBlock s i)).length = (destination s i).2 := by
  have hbs := bs_mod_four hs
  cases i with
  | aEncrypt => exact length_aEncryptBlock _ _
  | aDecrypt => exact length_aDecryptBlock _ _
  | bEncrypt => exact length_bEncryptBlock _ _
  | bDecrypt => exact length_bDecryptBlock _ _
  | cEncrypt =>
    simp only [blockFunction, length_cEncryptBlock, sourceBlock, length_memRead, destination]
    omega
  | cDecrypt =>
    simp only [blockFunction, length_cDecryptBlock, sourceBlock, length_memRead, destination]
    omega
  | _ => cases hi

/-- No assumption on how the two buffers lie: the block is the one in `M` before the command. -/
theorem memRead_effectOf_transform {s : State} {i : Instr} (hs : s.Invariant) (hi : i.format = .x) :
    memRead (effectOf s i).mem (destination s i).1 (destination s i).2
      = blockFunction s i (sourceBlock s i) := by
  rw [effectOf_transform s hi, storeAndComplete_mem, ← length_blockFunction hs hi]
  exact memRead_memWrite_same _ _ _

theorem memRead_of_transform_ok {s t : State} {i : Instr} (hs : s.inv = true) (hok : t.status = .ok)
    (hi : i.format = .x) (h : exec i s = .next t) :
    memRead t.mem (destination s i).1 (destination s i).2 = blockFunction s i (sourceBlock s i) := by
  rw [(exec_ok h hok).2]
  exact memRead_effectOf_transform ((inv_iff s).mp hs) hi

/-- Settles O58: the one shape of a transform, for each of the six. -/
theorem transformReadsWholeSourceFirst : Obligations.TransformReadsWholeSourceFirst := by
  unfold Obligations.TransformReadsWholeSourceFirst
  intro s t d a dl al hs hok
  have hread := fun i => memRead_of_transform_ok (i := i) hs hok
  exact ⟨hread (.aEncrypt d dl a al) rfl, hread (.aDecrypt d dl a al) rfl,
    hread (.bEncrypt d dl a al) rfl, hread (.bDecrypt d dl a al) rfl,
    hread (.cEncrypt d dl a al) rfl, hread (.cDecrypt d dl a al) rfl⟩

/-! ## A command issued twice (20_memory.md R65)

No command changes what its own checks read, so the second issue passes them exactly when the first did;
what is left is whether its effect is the one the first had. -/

@[simp] theorem checksOf_answered (s : State) (st : Status) (info : Word) (i : Instr) :
    checksOf (s.answered st info) i = checksOf s i := by
  cases i <;> rfl

@[simp] theorem checksOf_effectOf (s : State) (i : Instr) :
    checksOf (effectOf s i) i = checksOf s i := by
  cases i <;> rfl

@[simp] theorem destination_effectOf (s : State) (i : Instr) :
    destination (effectOf s i) i = destination s i := by
  cases i <;> rfl

@[simp] theorem blockFunction_effectOf (s : State) (i : Instr) :
    blockFunction (effectOf s i) i = blockFunction s i := by
  cases i <;> rfl

theorem exec_twice {i : Instr} {s t : State} (h : exec i s = .next t)
    (heffect : effectOf (effectOf s i) i = effectOf s i) : exec i t = .next t := by
  obtain ⟨hpass, rfl⟩ | ⟨c, hfail, -, rfl⟩ := exec_cases h
  · rw [exec_of_checks_pass (by rwa [checksOf_effectOf]), heffect]
  · rw [exec_of_firstFailure (c := c) (by rwa [checksOf_answered])]
    rfl

theorem storeAndComplete_twice {s : State} (a : Nat) (bytes : List Byte) (hm : s.mem.wf = true) :
    storeAndComplete a bytes (storeAndComplete a bytes s) = storeAndComplete a bytes s := by
  have hmem := memWrite_twice a bytes hm
  simp only [storeAndComplete, complete, hmem]

theorem effectOf_twice_of_not_transform {s : State} {i : Instr} (hm : s.mem.wf = true)
    (hi : i.format ≠ .x) : effectOf (effectOf s i) i = effectOf s i := by
  cases i with
  | cdcW2b => exact storeAndComplete_twice _ _ hm
  | aEncrypt | aDecrypt | bEncrypt | bDecrypt | cEncrypt | cDecrypt => exact absurd rfl hi
  | _ => rfl

theorem sourceBlock_effectOf_of_disjoint {s : State} {i : Instr} (hs : s.Invariant)
    (hi : i.format = .x)
    (hdisjoint : disjointBuffers (sourceAddr i) (destination s i).2
      (destination s i).1 (destination s i).2) :
    sourceBlock (effectOf s i) i = sourceBlock s i := by
  unfold sourceBlock
  rw [destination_effectOf, effectOf_transform s hi, storeAndComplete_mem]
  exact memRead_memWrite_disjoint (by rwa [length_blockFunction hs hi])

/-- With its source untouched, a transform computes the same block again and stores it over itself. -/
theorem effectOf_twice_of_disjoint {s : State} {i : Instr} (hs : s.Invariant) (hi : i.format = .x)
    (hdisjoint : disjointBuffers (sourceAddr i) (destination s i).2
      (destination s i).1 (destination s i).2) :
    effectOf (effectOf s i) i = effectOf s i := by
  rw [effectOf_transform (effectOf s i) hi, destination_effectOf, blockFunction_effectOf,
    sourceBlock_effectOf_of_disjoint hs hi hdisjoint, effectOf_transform s hi]
  exact storeAndComplete_twice _ _ hs.memWf

/-- In place, the second issue's source is the first one's output. -/
theorem memRead_of_transform_twice_inPlace {s t u : State} {i : Instr} (hs : s.inv = true)
    (hok : t.status = .ok) (hi : i.format = .x) (hplace : sourceAddr i = (destination s i).1)
    (ht : exec i s = .next t) (hu : exec i t = .next u) :
    memRead u.mem (destination s i).1 (destination s i).2
      = blockFunction s i (blockFunction s i (sourceBlock s i)) := by
  have hinv := (inv_iff s).mp hs
  obtain ⟨hpass, rfl⟩ := exec_ok ht hok
  obtain rfl : effectOf (effectOf s i) i = u :=
    exec_unique (exec_of_checks_pass (by rwa [checksOf_effectOf])) hu
  have hsecond := memRead_effectOf_transform (inv_effectOf hinv hpass) hi
  rw [destination_effectOf, blockFunction_effectOf] at hsecond
  rw [hsecond, sourceBlock, destination_effectOf, hplace, memRead_effectOf_transform hinv hi]

/-- Settles O60: the second effect is the first again where nothing the command reads was written; in
place the block function is applied twice. -/
theorem commandsIssuedTwiceGiveTheSame : Obligations.CommandsIssuedTwiceGiveTheSame := by
  unfold Obligations.CommandsIssuedTwiceGiveTheSame
  refine ⟨fun i s t hs h hi => ?_, fun i d a dl al s t hs h hmem hdisjoint => ?_,
    fun a l s t u hs hok => ?_⟩
  · exact exec_twice h (effectOf_twice_of_not_transform ((inv_iff s).mp hs).memWf hi)
  · obtain ⟨hi, rfl, rfl⟩ : i.format = .x ∧ sourceAddr i = a ∧ (destination s i).1 = d := by
      simp only [List.mem_cons, List.not_mem_nil, or_false] at hmem
      rcases hmem with rfl | rfl | rfl | rfl | rfl | rfl <;> exact ⟨rfl, rfl, rfl⟩
    exact exec_twice h (effectOf_twice_of_disjoint ((inv_iff s).mp hs) hi hdisjoint)
  · have hread := fun i => memRead_of_transform_twice_inPlace (i := i) (u := u) hs hok
    exact ⟨hread (.aEncrypt a l a l) rfl rfl, hread (.aDecrypt a l a l) rfl rfl,
      hread (.bEncrypt a l a l) rfl rfl, hread (.bDecrypt a l a l) rfl rfl,
      hread (.cEncrypt a l a l) rfl rfl, hread (.cDecrypt a l a l) rfl rfl⟩

end Sys2Proof.Machine

namespace Sys2Proof.Machine

/-! ## The decoder and the encoder (30_encoding.md R70 to R74)

A command's code says which instruction it is, its ports say the operands. `decode_eq_ok_iff` says this
once, and every statement about the encoding is read off it. -/

/-- The instruction with the operands that stand on the ports its format samples (R72). -/
def sampleOperands (cfg : Config) (c : Command) : Instr → Instr
  | .cdcB2w _ _ => .cdcB2w (sampleAddr cfg c.srcAddr) c.srcLen
  | .cdcW2b _ _ _ _ => .cdcW2b (sampleAddr cfg c.dstAddr) c.dstLen c.count c.wordsIn
  | .aConstruct _ _ => .aConstruct (sampleAddr cfg c.keyAddr) c.keyLen
  | .aBlocksize => .aBlocksize
  | .aEncrypt _ _ _ _ =>
    .aEncrypt (sampleAddr cfg c.dstAddr) c.dstLen (sampleAddr cfg c.srcAddr) c.srcLen
  | .aDecrypt _ _ _ _ =>
    .aDecrypt (sampleAddr cfg c.dstAddr) c.dstLen (sampleAddr cfg c.srcAddr) c.srcLen
  | .bConstruct _ _ => .bConstruct (sampleAddr cfg c.keyAddr) c.keyLen
  | .bBlocksize => .bBlocksize
  | .bEncrypt _ _ _ _ =>
    .bEncrypt (sampleAddr cfg c.dstAddr) c.dstLen (sampleAddr cfg c.srcAddr) c.srcLen
  | .bDecrypt _ _ _ _ =>
    .bDecrypt (sampleAddr cfg c.dstAddr) c.dstLen (sampleAddr cfg c.srcAddr) c.srcLen
  | .bWipe => .bWipe
  | .cConstruct _ _ _ => .cConstruct (sampleAddr cfg c.keyAddr) c.keyLen c.blockSize
  | .cBlocksize => .cBlocksize
  | .cEncrypt _ _ _ _ =>
    .cEncrypt (sampleAddr cfg c.dstAddr) c.dstLen (sampleAddr cfg c.srcAddr) c.srcLen
  | .cDecrypt _ _ _ _ =>
    .cDecrypt (sampleAddr cfg c.dstAddr) c.dstLen (sampleAddr cfg c.srcAddr) c.srcLen

theorem sampleAddr_of_fits {cfg : Config} {a : Nat} (h : cfg.addrFits a = true) :
    sampleAddr cfg a = a :=
  Nat.mod_eq_of_lt (of_decide_eq_true h)

@[simp] theorem addrFits_sampleAddr (cfg : Config) (a : Nat) :
    cfg.addrFits (sampleAddr cfg a) = true :=
  decide_eq_true (Nat.mod_lt a (Nat.two_pow_pos cfg.xaddr))

/-- The three fields of R71 make up the code. -/
theorem code_eq_of_fields {code : BitVec 8} {u o : Nat} (hr : ¬codeRsv code ≠ 0)
    (hu : (codeUnit code).toNat = u) (ho : (codeOp code).toNat = o) :
    code = BitVec.ofNat 8 (16 * u + o) := by
  have hr : code.toNat / 64 % 4 = 0 := by
    simpa [codeRsv, Nat.shiftRight_eq_div_pow] using congrArg BitVec.toNat (not_not.mp hr)
  have hu : code.toNat / 16 % 4 = u := by simpa [codeUnit, Nat.shiftRight_eq_div_pow] using hu
  have ho : code.toNat % 16 = o := by simpa [codeOp] using ho
  apply BitVec.eq_of_toNat_eq
  rw [BitVec.toNat_ofNat]
  omega

theorem decode_of_code {cfg : Config} {c : Command} {i : Instr} (h : c.code = i.code) :
    decode cfg c = .ok (sampleOperands cfg c i) := by
  cases i <;> simp [decode, h, Instr.code, codeRsv, codeUnit, codeOp, sampleOperands]

/-- Each row of the decoder answers the instruction of the row's code. -/
theorem decode_ok {cfg : Config} {c : Command} {i : Instr} (h : decode cfg c = .ok i) :
    c.code = i.code ∧ sampleOperands cfg c i = i := by
  unfold decode at h
  split at h
  next => cases h
  next hrsv =>
    dsimp only at h
    split at h
    case h_16 => cases h
    all_goals
      next hunit hop =>
        cases h
        exact ⟨code_eq_of_fields hrsv hunit hop, rfl⟩

theorem decode_eq_ok_iff (cfg : Config) (c : Command) (i : Instr) :
    decode cfg c = .ok i ↔ c.code = i.code ∧ sampleOperands cfg c i = i :=
  ⟨decode_ok, fun ⟨hcode, hops⟩ => by rw [decode_of_code hcode, hops]⟩

@[simp] theorem code_encode (i : Instr) : (encode i).code = i.code := by
  cases i <;> rfl

theorem sampleOperands_encode {cfg : Config} {i : Instr} (h : i.wf cfg = true) :
    sampleOperands cfg (encode i) i = i := by
  cases i with
  | aBlocksize | bBlocksize | bWipe | cBlocksize => rfl
  | cdcB2w | aConstruct | bConstruct | cConstruct =>
    simp [sampleOperands, encode, Command.withKey, sampleAddr_of_fits h]
  | cdcW2b =>
    obtain ⟨hdst, -⟩ := Bool.and_eq_true_iff.mp h
    simp [sampleOperands, encode, sampleAddr_of_fits hdst]
  | aEncrypt | aDecrypt | bEncrypt | bDecrypt | cEncrypt | cDecrypt =>
    obtain ⟨hdst, hsrc⟩ := Bool.and_eq_true_iff.mp h
    simp [sampleOperands, encode, Command.withBuffers, sampleAddr_of_fits hdst,
      sampleAddr_of_fits hsrc]

/-- Settles O4: the encoder presents the instruction's code, and its ports hold the operands. -/
theorem decodeInvertsEncode : Obligations.DecodeInvertsEncode := by
  unfold Obligations.DecodeInvertsEncode
  intro cfg i h
  exact (decode_eq_ok_iff ..).mpr ⟨code_encode i, sampleOperands_encode h⟩

/-! ### Legal and illegal codes (R74, R76) -/

theorem code_mem_commandCodes (i : Instr) : i.code ∈ commandCodes := by
  cases i <;> simp [Instr.code, commandCodes]

theorem decode_of_illegal (cfg : Config) {c : Command} (h : c.code ∉ commandCodes) :
    ∃ e, decode cfg c = .error e := by
  cases hd : decode cfg c with
  | error e => exact ⟨e, rfl⟩
  | ok i => exact absurd ((decode_ok hd).1 ▸ code_mem_commandCodes i) h

/-- The parts of `Command.wf` by name. -/
theorem command_wf_iff (cfg : Config) (c : Command) :
    c.wf cfg = true ↔ cfg.addrFits c.keyAddr = true ∧ cfg.addrFits c.dstAddr = true ∧
      cfg.addrFits c.srcAddr = true ∧ wordsMatch c.count c.wordsIn = true := by
  simp only [Command.wf, Bool.and_eq_true, and_assoc]

/-- Settles O1: the code selects the instruction, and a port of its width is sampled as it stands. -/
theorem commandCodesDecodeAsTabulated : Obligations.CommandCodesDecodeAsTabulated := by
  unfold Obligations.CommandCodesDecodeAsTabulated
  intro cfg c hwf
  obtain ⟨hkey, hdst, hsrc, -⟩ := (command_wf_iff cfg c).mp hwf
  have hdecode (i : Instr) (h : c.code = i.code) : decode cfg c = .ok (sampleOperands cfg c i) :=
    decode_of_code h
  -- Each address port read as what its wires carry: the statement is then `hdecode`, code by code.
  rw [← sampleAddr_of_fits hkey, ← sampleAddr_of_fits hdst, ← sampleAddr_of_fits hsrc]
  exact ⟨hdecode (.cdcB2w 0 0), hdecode (.cdcW2b 0 0 0 []), hdecode (.aConstruct 0 0),
    hdecode .aBlocksize, hdecode (.aEncrypt 0 0 0 0), hdecode (.aDecrypt 0 0 0 0),
    hdecode (.bConstruct 0 0), hdecode .bBlocksize, hdecode (.bEncrypt 0 0 0 0),
    hdecode (.bDecrypt 0 0 0 0), hdecode .bWipe, hdecode (.cConstruct 0 0 0),
    hdecode .cBlocksize, hdecode (.cEncrypt 0 0 0 0), hdecode (.cDecrypt 0 0 0 0),
    decode_of_illegal cfg⟩

/-- Settles O2: the codes are literals and every port is at zero, so the decoder computes. -/
theorem writtenOutCodesDecode : Obligations.WrittenOutCodesDecode := by
  unfold Obligations.WrittenOutCodesDecode
  decide

theorem runCommand_of_decode {c : Command} {i : Instr} {s : State} (h : decode s.cfg c = .ok i) :
    runCommand c s = exec i s := by
  simp only [runCommand, h]

theorem runCommand_of_illegal {c : Command} (s : State) (h : c.code ∉ commandCodes) :
    runCommand c s = .next (s.answered .illegalCommand (c.code.setWidth 32)) := by
  obtain ⟨e, he⟩ := decode_of_illegal s.cfg h
  simp only [runCommand, he, raise_eq_answered]

theorem not_mem_commandCodes_iff (c : BitVec 8) : c ∉ commandCodes ↔
    (0x40 ≤ c.toNat ∨ (0x02 ≤ c.toNat ∧ c.toNat ≤ 0x0F) ∨ (0x14 ≤ c.toNat ∧ c.toNat ≤ 0x1F) ∨
      (0x25 ≤ c.toNat ∧ c.toNat ≤ 0x2F) ∨ (0x34 ≤ c.toNat ∧ c.toNat ≤ 0x3F)) := by
  simp only [commandCodes, List.mem_cons, List.not_mem_nil, or_false, ← BitVec.toNat_inj,
    BitVec.reduceToNat]
  omega

theorem length_illegalCodes :
    ((List.range 256).filter (fun n => decide (BitVec.ofNat 8 n ∉ commandCodes))).length = 241 := by
  decide +kernel

/-- Settles O3: the code of no instruction does not decode, and the command is then refused. -/
theorem illegalCodeCompletesWithIllegalCommand :
    Obligations.IllegalCodeCompletesWithIllegalCommand := by
  unfold Obligations.IllegalCodeCompletesWithIllegalCommand
  refine ⟨fun s c rest hpending hcode => ?_, not_mem_commandCodes_iff, length_illegalCodes⟩
  rw [step_of_pending hpending]
  exact runCommand_of_illegal _ hcode

/-- Settles O9: a step hands the presented command to its decoded meaning. -/
theorem stepRunsTheDecodedCommand : Obligations.StepRunsTheDecodedCommand := by
  unfold Obligations.StepRunsTheDecodedCommand
  refine ⟨fun s c rest i hpending hdecode => ?_, fun s hpending => ?_⟩
  · rw [step_of_pending hpending]
    exact runCommand_of_decode hdecode
  · unfold step
    rw [hpending]

/-! ### The sampled ports are all there is to a command (R72) -/

theorem sampleOperands_wf {cfg : Config} {c : Command} (h : wordsMatch c.count c.wordsIn = true)
    (i : Instr) : (sampleOperands cfg c i).wf cfg = true := by
  cases i <;> simp [sampleOperands, Instr.wf, h]

theorem samePorts_encode_sampleOperands {cfg : Config} {c : Command} (h : c.wf cfg = true)
    (i : Instr) : samePorts i.format (encode (sampleOperands cfg c i)) c := by
  obtain ⟨hkey, hdst, hsrc, -⟩ := (command_wf_iff cfg c).mp h
  cases i <;>
    simp [sampleOperands, encode, Command.withKey, Command.withBuffers, Instr.format, samePorts,
      sampleAddr_of_fits hkey, sampleAddr_of_fits hdst, sampleAddr_of_fits hsrc]

/-- Settles O5: the operands of the decoded instruction are the sampled ports. -/
theorem encodeInvertsDecode : Obligations.EncodeInvertsDecode := by
  unfold Obligations.EncodeInvertsDecode
  intro cfg c i hwf h
  obtain ⟨hcode, hops⟩ := decode_ok h
  obtain ⟨-, -, -, hwords⟩ := (command_wf_iff cfg c).mp hwf
  have hports := samePorts_encode_sampleOperands hwf i
  have hfits := sampleOperands_wf (cfg := cfg) hwords i
  rw [hops] at hports hfits
  exact ⟨(code_encode i).trans hcode.symm, hports, hfits⟩

theorem sampleOperands_congr (cfg : Config) {c d : Command} {i : Instr}
    (h : samePorts i.format c d) : sampleOperands cfg c i = sampleOperands cfg d i := by
  cases i with
  | aBlocksize | bBlocksize | bWipe | cBlocksize => rfl
  | cdcB2w | aConstruct | bConstruct =>
    obtain ⟨haddr, hlen⟩ := h
    simp only [sampleOperands, haddr, hlen]
  | cConstruct =>
    obtain ⟨haddr, hlen, hsize⟩ := h
    simp only [sampleOperands, haddr, hlen, hsize]
  | cdcW2b =>
    obtain ⟨hdst, hlen, hcount, hwords⟩ := h
    simp only [sampleOperands, hdst, hlen, hcount, hwords]
  | aEncrypt | aDecrypt | bEncrypt | bDecrypt | cEncrypt | cDecrypt =>
    obtain ⟨hdst, hdlen, hsrc, hslen⟩ := h
    simp only [sampleOperands, hdst, hdlen, hsrc, hslen]

theorem decode_congr {cfg : Config} {c d : Command} {i : Instr} (h : decode cfg c = .ok i)
    (hcode : d.code = c.code) (hports : samePorts i.format c d) : decode cfg d = .ok i := by
  obtain ⟨hc, hops⟩ := decode_ok h
  exact (decode_eq_ok_iff ..).mpr
    ⟨hcode.trans hc, (sampleOperands_congr cfg hports).symm.trans hops⟩

theorem format_iff_code (i : Instr) :
    (i.format = .n ↔ i.code ∈ [0x11#8, 0x21#8, 0x31#8, 0x24#8]) ∧
    (i.format = .k ↔ i.code ∈ [0x10#8, 0x20#8]) ∧ (i.format = .kc ↔ i.code = 0x30#8) ∧
    (i.format = .x ↔ i.code ∈ [0x12#8, 0x13#8, 0x22#8, 0x23#8, 0x32#8, 0x33#8]) ∧
    (i.format = .r ↔ i.code = 0x00#8) ∧ (i.format = .w ↔ i.code = 0x01#8) := by
  cases i <;> simp only [Instr.format, Instr.code] <;> decide

/-- Settles O6: a decoded command's code is its instruction's, and a command that agrees on the sampled
ports decodes to the same instruction. -/
theorem unsampledPortsHaveNoEffect : Obligations.UnsampledPortsHaveNoEffect := by
  unfold Obligations.UnsampledPortsHaveNoEffect
  intro s c d i h
  obtain ⟨hn, hk, hkc, hx, hr, hw⟩ := (decode_ok h).1 ▸ format_iff_code i
  refine ⟨hn, hk, hkc, hx, hr, hw, fun hcode hports => ?_⟩
  rw [runCommand_of_decode h, runCommand_of_decode (decode_congr h hcode hports)]

/-! ## Listing lines (30_encoding.md R78, R79) -/

theorem asAddr_of_fits {cfg : Config} {a : Nat} (h : cfg.addrFits a = true) :
    asAddr cfg a = some a :=
  if_pos h

@[simp] theorem asWord_toNat (w : Word) : asWord w.toNat = some w := by
  rw [asWord, if_pos w.isLt, BitVec.ofNat_toNat, BitVec.setWidth_eq]

@[simp] theorem asWords_map_toNat (ws : List Word) : asWords (ws.map BitVec.toNat) = some ws := by
  induction ws with
  | nil => rfl
  | cons w rest ih => simp [asWords, ih]

@[simp] theorem linePorts_keyOperands (a : Nat) (l : Word) :
    linePorts (keyOperands a l) = some [.number .keyAddr a, .number .keyLen l.toNat] := rfl

@[simp] theorem linePorts_bufferOperands (d : Nat) (dl : Word) (a : Nat) (al : Word) :
    linePorts (bufferOperands d dl a al) = some [.number .dstAddr d, .number .dstLen dl.toNat,
      .number .srcAddr a, .number .srcLen al.toNat] := rfl

theorem asKey_ports {cfg : Config} (make : Nat → Word → Instr) {a : Nat} (l : Word)
    (h : cfg.addrFits a = true) :
    asKey cfg make [.number .keyAddr a, .number .keyLen l.toNat] = some (make a l) := by
  simp [asKey, asAddr_of_fits h]

theorem asBuffers_ports {cfg : Config} (make : Nat → Word → Nat → Word → Instr) {d a : Nat}
    (dl al : Word) (hd : cfg.addrFits d = true) (ha : cfg.addrFits a = true) :
    asBuffers cfg make [.number .dstAddr d, .number .dstLen dl.toNat, .number .srcAddr a,
      .number .srcLen al.toNat] = some (make d dl a al) := by
  simp [asBuffers, asAddr_of_fits hd, asAddr_of_fits ha]

@[simp] theorem pseudoBase_mnemonicOf (i : Instr) : pseudoBase (mnemonicOf i) = none := by
  cases i <;> simp [mnemonicOf, pseudoBase]

@[simp] theorem expandPseudo_listing (i : Instr) : expandPseudo (listing i) = listing i := by
  simp [expandPseudo, listing]

theorem assemble_listing_eq (cfg : Config) (i : Instr) : assemble cfg (listing i)
    = (linePorts (operandsOf i)).bind (assemblePorts cfg (mnemonicOf i)) := by
  rw [assemble, expandPseudo_listing]
  rfl

/-- The ports of a listed command are those of its format, in order, and each number fits its port. -/
theorem assemble_listing {cfg : Config} {i : Instr} (h : i.wf cfg = true) :
    assemble cfg (listing i) = some i := by
  rw [assemble_listing_eq]
  cases i with
  | aBlocksize | bBlocksize | bWipe | cBlocksize =>
    simp [mnemonicOf, operandsOf, assemblePorts, asBare]
  | cdcB2w =>
    simp [mnemonicOf, operandsOf, assemblePorts, AsmOperand.ports, asAddr_of_fits h]
  | aConstruct | bConstruct =>
    simp [mnemonicOf, operandsOf, assemblePorts, asKey_ports _ _ h]
  | cConstruct =>
    simp [mnemonicOf, operandsOf, assemblePorts, keyOperands, AsmOperand.ports, asAddr_of_fits h]
  | cdcW2b =>
    obtain ⟨hdst, hwords⟩ := Bool.and_eq_true_iff.mp h
    have hcount := of_decide_eq_true hwords
    simp [mnemonicOf, operandsOf, assemblePorts, AsmOperand.ports, asAddr_of_fits hdst, hcount]
  | aEncrypt | aDecrypt | bEncrypt | bDecrypt | cEncrypt | cDecrypt =>
    obtain ⟨hdst, hsrc⟩ := Bool.and_eq_true_iff.mp h
    simp [mnemonicOf, operandsOf, assemblePorts, asBuffers_ports _ _ _ hdst hsrc]

/-- Settles O7: a listed command's ports are assembled one by one. -/
theorem assembleInvertsListing : Obligations.AssembleInvertsListing :=
  fun _ _ h => assemble_listing h

/-- An in-place line stands for the listing line of its command, with the one buffer twice. -/
theorem assemble_inPlace {cfg : Config} {m : String} {i : Instr} {a : Nat} {l : Word}
    (hm : pseudoBase m = some (mnemonicOf i)) (hops : operandsOf i = bufferOperands a l a l)
    (hwf : i.wf cfg = true) : assemble cfg ⟨m, [.buffer .buf a l.toNat]⟩ = some i := by
  have hexpand : expandPseudo ⟨m, [.buffer .buf a l.toNat]⟩ = expandPseudo (listing i) := by
    rw [expandPseudo_listing, listing, hops]
    simp [expandPseudo, hm, bufferOperands]
  rw [assemble, hexpand]
  exact assemble_listing hwf

/-- Settles O8: each name expands to its transform's listing line, and no other name is tested for. -/
theorem pseudoCommandsExpandInPlace : Obligations.PseudoCommandsExpandInPlace := by
  unfold Obligations.PseudoCommandsExpandInPlace
  refine ⟨fun cfg a l ha => ?_, fun m hm => ?_⟩
  · have hboth : (cfg.addrFits a && cfg.addrFits a) = true := Bool.and_eq_true_iff.mpr ⟨ha, ha⟩
    exact ⟨assemble_inPlace rfl rfl hboth, assemble_inPlace rfl rfl hboth,
      assemble_inPlace rfl rfl hboth, assemble_inPlace rfl rfl hboth,
      assemble_inPlace rfl rfl hboth, assemble_inPlace rfl rfl hboth⟩
  · simp only [List.mem_cons, List.not_mem_nil, or_false, not_or] at hm
    simp [pseudoBase, hm]

/-! ## The result ports (30_encoding.md R75) -/

theorem result_effectOf_isSome_iff (s : State) (i : Instr) :
    (effectOf s i).result.isSome = true ↔ i = .aBlocksize ∨ i = .bBlocksize ∨ i = .cBlocksize := by
  cases i <;> simp [effectOf]

theorem wordsOut_effectOf_isSome_iff (s : State) (i : Instr) :
    (effectOf s i).wordsOut.isSome = true ↔ ∃ a l, i = .cdcB2w a l := by
  cases i <;> simp [effectOf]

theorem hostRead_result (s : State) : hostRead .result s =
    if s.result.isSome then .next s else .fault .portWithoutValue := rfl

theorem hostRead_wordsOut (s : State) : hostRead .wordsOut s =
    if s.wordsOut.isSome then .next s else .fault .portWithoutValue := rfl

/-- Settles O14: an effect gives a port its value for the named commands only, a refusal for none; a host
read tests for the value. -/
theorem resultPortsHaveValuesOnlyWhereNamed : Obligations.ResultPortsHaveValuesOnlyWhereNamed := by
  unfold Obligations.ResultPortsHaveValuesOnlyWhereNamed
  refine ⟨fun i s t h => ?_, fun s rest hpending => ?_, fun s rest hpending => ?_⟩
  · obtain ⟨-, rfl⟩ | ⟨c, -, hst, rfl⟩ := exec_cases h
    · simp only [result_effectOf_isSome_iff, wordsOut_effectOf_isSome_iff, status_effectOf, true_and,
        and_self]
    · simp [hst]
  · rw [step_of_pending hpending, handleEvent, hostRead_result]
    exact ⟨fun hnone => by simp [hnone], fun v hsome => by simp [hsome]⟩
  · rw [step_of_pending hpending, handleEvent, hostRead_wordsOut]
    exact ⟨fun hnone => by simp [hnone], fun ws hsome => by simp [hsome]⟩

end Sys2Proof.Machine

namespace Sys2Proof.Machine

/-! ## `be_encode` and `be_decode` (40_codec.md R90, R91) -/

theorem beEncode_eq_ofNat (w : Word) :
    beEncode w = ⟨BitVec.ofNat 8 (w.toNat / 2 ^ 24), BitVec.ofNat 8 (w.toNat / 2 ^ 16),
      BitVec.ofNat 8 (w.toNat / 2 ^ 8), BitVec.ofNat 8 w.toNat⟩ := by
  simp only [beEncode, BitVec.extractLsb', Nat.shiftRight_eq_div_pow, pow_zero, Nat.div_one]

@[simp] theorem beDecode_beEncode (w : Word) : beDecode (beEncode w) = w := by
  apply BitVec.eq_of_toNat_eq
  rw [toNat_beDecode, beEncode_eq_ofNat]
  simp only [BitVec.toNat_ofNat]
  omega

/-- A byte is what its eight bits of the decoded number are: the bytes above it are multiples of
their range, the bytes below it are divided away. -/
@[simp] theorem beEncode_beDecode (b : Quad Byte) : beEncode (beDecode b) = b := by
  have hbyte {n : Nat} {y : Byte} (h : n % 2 ^ 8 = y.toNat) : BitVec.ofNat 8 n = y :=
    BitVec.eq_of_toNat_eq ((BitVec.toNat_ofNat n 8).trans h)
  obtain ⟨b0, b1, b2, b3⟩ := b
  simp only [beEncode_eq_ofNat, toNat_beDecode, Quad.mk.injEq]
  exact ⟨hbyte (by omega), hbyte (by omega), hbyte (by omega), hbyte (by omega)⟩

/-- Settles O16: the number is `toNat_beDecode`, and the four bit fields of a word are what `be_encode`
makes of it. -/
theorem bigEndianDecodeValue : Obligations.BigEndianDecodeValue := by
  unfold Obligations.BigEndianDecodeValue
  intro b
  have hfields := beEncode_beDecode b
  exact ⟨toNat_beDecode b, congrArg Quad.x0 hfields, congrArg Quad.x1 hfields,
    congrArg Quad.x2 hfields, congrArg Quad.x3 hfields⟩

/-- Settles O17: field by field, and the two inverse laws by the number a word is. -/
theorem bigEndianEncodeInvertsDecode : Obligations.BigEndianEncodeInvertsDecode :=
  ⟨beEncode_eq_ofNat, beDecode_beEncode, beEncode_beDecode⟩

/-! ## `bytes_to_words` and `words_to_bytes` (40_codec.md R92, R93) -/

@[simp] theorem bytesToWords_wordsToBytes (ws : List Word) : bytesToWords (wordsToBytes ws) = ws := by
  induction ws with
  | nil => rfl
  | cons w rest ih =>
    calc bytesToWords ((beEncode w).toList ++ wordsToBytes rest)
        = beDecode (beEncode w) :: bytesToWords (wordsToBytes rest) := rfl
      _ = w :: rest := by rw [beDecode_beEncode, ih]

theorem wordsToBytes_bytesToWords {bs : List Byte} (h : bs.length % 4 = 0) :
    wordsToBytes (bytesToWords bs) = bs := by
  induction bs using bytesToWords.induct with
  | case1 b0 b1 b2 b3 rest ih =>
    have hrest : rest.length % 4 = 0 := by simp only [List.length_cons] at h; omega
    rw [bytesToWords, wordsToBytes, beEncode_beDecode, ih hrest]
    rfl
  | case2 bs hshort =>
    have hnone : bytesToWords bs = [] := bytesToWords.eq_2 bs hshort
    have hlen := length_bytesToWords bs
    rw [hnone, List.length_nil] at hlen
    obtain rfl : bs = [] := List.length_eq_zero_iff.mp (by omega)
    rfl

theorem getElem?_wordsToBytes {ws : List Word} {j k : Nat} {w : Word} (hw : ws[j]? = some w)
    (hk : k < 4) : (wordsToBytes ws)[4 * j + k]? = (beEncode w).toList[k]? := by
  induction ws generalizing j with
  | nil => cases hw
  | cons v rest ih =>
    have hlen : (beEncode v).toList.length = 4 := rfl
    rw [wordsToBytes]
    cases j with
    | zero =>
      obtain rfl : v = w := Option.some.inj hw
      rw [Nat.mul_zero, Nat.zero_add, List.getElem?_append_left (by omega)]
    | succ j =>
      rw [List.getElem?_append_right (by omega), hlen,
        show 4 * (j + 1) + k - 4 = 4 * j + k from by omega]
      exact ih hw

/-- The bytes at `4j .. 4j+3` are those of word j, because `words_to_bytes` gives the bytes back. -/
theorem getElem?_bytesToWords {bs : List Byte} (h : bs.length % 4 = 0) {j : Nat} {b0 b1 b2 b3 : Byte}
    (h0 : bs[4 * j]? = some b0) (h1 : bs[4 * j + 1]? = some b1) (h2 : bs[4 * j + 2]? = some b2)
    (h3 : bs[4 * j + 3]? = some b3) : (bytesToWords bs)[j]? = some (beDecode ⟨b0, b1, b2, b3⟩) := by
  obtain ⟨hlast, -⟩ := List.getElem?_eq_some_iff.mp h3
  have hj : j < (bytesToWords bs).length := by rw [length_bytesToWords]; omega
  obtain ⟨w, hw⟩ : ∃ w, (bytesToWords bs)[j]? = some w := ⟨_, List.getElem?_eq_getElem hj⟩
  have hbyte (k : Nat) (hk : k < 4) : bs[4 * j + k]? = (beEncode w).toList[k]? := by
    rw [← getElem?_wordsToBytes hw hk, wordsToBytes_bytesToWords h]
  obtain rfl : b0 = (beEncode w).x0 := Option.some.inj (h0.symm.trans (hbyte 0 (by decide)))
  obtain rfl : b1 = (beEncode w).x1 := Option.some.inj (h1.symm.trans (hbyte 1 (by decide)))
  obtain rfl : b2 = (beEncode w).x2 := Option.some.inj (h2.symm.trans (hbyte 2 (by decide)))
  obtain rfl : b3 = (beEncode w).x3 := Option.some.inj (h3.symm.trans (hbyte 3 (by decide)))
  rw [hw]
  exact congrArg some (beDecode_beEncode w).symm

/-- Settles O18: the lengths, the word at each position in both directions, and the two inverse laws. -/
theorem wordSequenceCodecInverse : Obligations.WordSequenceCodecInverse := by
  unfold Obligations.WordSequenceCodecInverse
  refine ⟨fun bs hbs => ⟨length_bytesToWords bs,
    fun j b0 b1 b2 b3 h0 h1 h2 h3 => getElem?_bytesToWords hbs h0 h1 h2 h3,
    wordsToBytes_bytesToWords hbs⟩, fun ws => ⟨length_wordsToBytes ws, fun j w hw => ?_,
    bytesToWords_wordsToBytes ws⟩⟩
  have hbyte (k : Nat) (hk : k < 4) := getElem?_wordsToBytes hw hk
  exact ⟨hbyte 0 (by decide), hbyte 1 (by decide), hbyte 2 (by decide), hbyte 3 (by decide)⟩

/-! ## The commands of the Word Codec (40_codec.md R94, R95) -/

theorem exec_cdcB2w (srcAddr : Nat) (srcLen : Word) (s : State) :
    exec (.cdcB2w srcAddr srcLen) s =
      guarded [wholeWordsCheck srcLen, rangeCheck 1 s.cfg srcAddr srcLen.toNat]
        (fun s => completeWords (bytesToWords (memRead s.mem srcAddr srcLen.toNat)) s) s := rfl

theorem exec_cdcW2b (dstAddr : Nat) (dstLen count : Word) (ws : List Word) (s : State) :
    exec (.cdcW2b dstAddr dstLen count ws) s =
      guarded [coversWordsCheck dstLen count, rangeCheck 2 s.cfg dstAddr dstLen.toNat]
        (fun s => storeAndComplete dstAddr (wordsToBytes (sampleWords s.tick count ws)) s) s := rfl

theorem wholeWordsCheck_fail {len : Word} (h : len.toNat % 4 ≠ 0) :
    (wholeWordsCheck len).fails = true := decide_eq_true h

theorem wholeWordsCheck_pass {len : Word} (h : len.toNat % 4 = 0) :
    (wholeWordsCheck len).fails = false := decide_eq_false (not_not.mpr h)

theorem coversWordsCheck_fail {len count : Word}
    (h : len.toNat % 4 ≠ 0 ∨ len.toNat < 4 * count.toNat) :
    (coversWordsCheck len count).fails = true := by
  simpa only [coversWordsCheck, Bool.or_eq_true, decide_eq_true_eq] using h

theorem coversWordsCheck_pass {len count : Word} (hwhole : len.toNat % 4 = 0)
    (hcovers : 4 * count.toNat ≤ len.toNat) : (coversWordsCheck len count).fails = false := by
  simp only [coversWordsCheck, Bool.or_eq_false_iff, decide_eq_false_iff_not]
  omega

/-- Settles O20: the two checks in order, then the decoded words. -/
theorem cdcB2wCommand : Obligations.CdcB2wCommand := by
  unfold Obligations.CdcB2wCommand
  intro s src srcLen
  rw [exec_cdcB2w]
  refine ⟨fun hlen => guarded_fail (wholeWordsCheck_fail hlen), fun hlen hrange => ?_,
    fun hlen hrange => ⟨?_, ?_⟩⟩
  · rw [guarded_pass (wholeWordsCheck_pass hlen)]
    exact guarded_fail (rangeCheck_fail hrange)
  · rw [guarded_pass (wholeWordsCheck_pass hlen), guarded_pass (rangeCheck_pass hrange)]
    rfl
  · rw [length_bytesToWords, length_memRead]

/-- Settles O21: the two checks in order, then one `MemWrite` of the words presented, whose `4 * count`
bytes are all it changes. -/
theorem cdcW2bCommand : Obligations.CdcW2bCommand := by
  unfold Obligations.CdcW2bCommand
  intro s dst dstLen count ws hcount
  rw [exec_cdcW2b]
  refine ⟨fun hlen => guarded_fail (coversWordsCheck_fail hlen), fun hwhole hcovers hrange => ?_,
    fun hwhole hcovers hrange => ⟨?_, fun x hx => ?_⟩⟩
  · rw [guarded_pass (coversWordsCheck_pass hwhole hcovers)]
    exact guarded_fail (rangeCheck_fail hrange)
  · rw [guarded_pass (coversWordsCheck_pass hwhole hcovers), guarded_pass (rangeCheck_pass hrange),
      guarded_nil, sampleWords_of_match hcount]
    rfl
  · apply read_memWrite_outside
    rwa [length_wordsToBytes, hcount]

end Sys2Proof.Machine

namespace Sys2Proof.Machine

/-! ## The counted loops (41_cipher_a.md R102, R103; 42_cipher_b.md R124, R125;
43_cipher_c.md R144, R145)

Every block function is a counted loop whose round adds `DELTA` to `sum` or takes it away. What holds of
such loops whatever the engine is said here once. -/

theorem repeatTimes_eq_iterate {σ : Type} (f : σ → σ) (n : Nat) (s : σ) :
    repeatTimes f n s = f^[n] s := by
  induction n generalizing s with
  | zero => rfl
  | succ n ih => exact ih (f s)

/-- A loop whose round undoes another loop's round undoes that loop. -/
theorem repeatTimes_leftInverse {σ : Type} {f g : σ → σ} (h : Function.LeftInverse g f) (n : Nat)
    (s : σ) : repeatTimes g n (repeatTimes f n s) = s := by
  rw [repeatTimes_eq_iterate, repeatTimes_eq_iterate]
  exact h.iterate n s

@[simp] theorem deltaTimes_zero : deltaTimes 0 = 0#32 := rfl

theorem deltaTimes_add (m n : Nat) : deltaTimes (m + n) = deltaTimes m + deltaTimes n := by
  simp only [deltaTimes, BitVec.ofNat_add, BitVec.mul_add]

theorem deltaTimes_succ (n : Nat) : deltaTimes (n + 1) = deltaTimes n + delta :=
  deltaTimes_add n 1

theorem deltaTimes_sub {m n : Nat} (h : m ≤ n) :
    deltaTimes n - deltaTimes m = deltaTimes (n - m) := by
  have hsplit := deltaTimes_add (n - m) m
  rw [Nat.sub_add_cancel h] at hsplit
  rw [hsplit, BitVec.add_sub_cancel]

/-- `sum` is whatever word of the loop's state the round adds `DELTA` to. -/
theorem sum_repeatTimes_of_increment {σ : Type} {f : σ → σ} {sum : σ → Word}
    (h : ∀ s, sum (f s) = sum s + delta) (n : Nat) (s : σ) :
    sum (repeatTimes f n s) = sum s + deltaTimes n := by
  induction n with
  | zero => exact (BitVec.add_zero _).symm
  | succ n ih => rw [repeatTimes_succ', h, ih, deltaTimes_succ, BitVec.add_assoc]

theorem sum_repeatTimes_of_decrement {σ : Type} {f : σ → σ} {sum : σ → Word}
    (h : ∀ s, sum (f s) = sum s - delta) (n : Nat) (s : σ) :
    sum (repeatTimes f n s) = sum s - deltaTimes n := by
  induction n with
  | zero => exact (BitVec.sub_zero _).symm
  | succ n ih => rw [repeatTimes_succ', h, ih, deltaTimes_succ, BitVec.sub_sub]

/-! ### The sums of engines A and B -/

@[simp] theorem sum_startRounds (sum : Word) (block : List Byte) :
    (startRounds sum block).sum = sum := rfl

theorem delta_shift_five : delta <<< 5 = deltaTimes 32 := by decide

/-- Both encryption loops start from `sum` 0. -/
theorem sum_of_increment_rounds {f : RoundState → RoundState} (h : ∀ s, (f s).sum = s.sum + delta)
    (block : List Byte) (r : Nat) : (repeatTimes f r (startRounds 0 block)).sum = deltaTimes r := by
  rw [sum_repeatTimes_of_increment h]
  exact BitVec.zero_add _

/-- Both decryption loops start from `DELTA << 5`, the `sum` of the 32nd encryption round. -/
theorem sum_of_decrement_rounds {f : RoundState → RoundState} (h : ∀ s, (f s).sum = s.sum - delta)
    (block : List Byte) {j : Nat} (hj : j ≤ 32) :
    (repeatTimes f j (startRounds (delta <<< 5) block)).sum = deltaTimes (32 - j) := by
  rw [sum_repeatTimes_of_decrement h, sum_startRounds, delta_shift_five, deltaTimes_sub hj]

@[simp] theorem sum_aEncryptRound (k : Quad Word) (r : RoundState) :
    (aEncryptRound k r).sum = r.sum + delta := rfl

@[simp] theorem sum_aDecryptRound (k : Quad Word) (r : RoundState) :
    (aDecryptRound k r).sum = r.sum - delta := rfl

@[simp] theorem sum_bEncryptRound (k : Quad Word) (r : RoundState) :
    (bEncryptRound k r).sum = r.sum + delta := rfl

@[simp] theorem sum_bDecryptRound (k : Quad Word) (r : RoundState) :
    (bDecryptRound k r).sum = r.sum - delta := rfl

/-- Settles O23: each round of the four loops adds or takes away one `DELTA`. -/
theorem roundSumsOfEnginesAAndB : Obligations.RoundSumsOfEnginesAAndB := by
  unfold Obligations.RoundSumsOfEnginesAAndB
  intro k block r hr
  exact ⟨sum_of_increment_rounds (sum_aEncryptRound k) block r,
    sum_of_decrement_rounds (sum_aDecryptRound k) block hr,
    sum_of_increment_rounds (sum_bEncryptRound k) block r,
    sum_of_decrement_rounds (sum_bDecryptRound k) block hr, by decide, deltaTimes_zero⟩

/-! ### The 8-byte block of engines A and B (41_cipher_a.md R100) -/

@[simp] theorem startRounds_block (sum : Word) (r : RoundState) :
    startRounds sum r.block = { r with sum := sum } := by
  simp [startRounds, RoundState.block]

theorem bytesToWords_of_length_eight {block : List Byte} (h : block.length = 8) (sum : Word) :
    bytesToWords block = [(startRounds sum block).v0, (startRounds sum block).v1] := by
  have htwo : (bytesToWords block).length = 2 := by rw [length_bytesToWords, h]
  obtain ⟨w0, w1, hw⟩ := List.length_eq_two.mp htwo
  simp only [startRounds, hw, List.getD_cons_zero, List.getD_cons_succ]

theorem block_startRounds {block : List Byte} (h : block.length = 8) (sum : Word) :
    (startRounds sum block).block = block := by
  rw [RoundState.block, ← bytesToWords_of_length_eight h, wordsToBytes_bytesToWords (by rw [h])]

/-- Two loops on a block undo each other when their rounds do and the second starts from the `sum` the
first ends with: the result block carries the words over, and the start puts that `sum` back. -/
theorem block_roundTrip {f g : RoundState → RoundState} (hround : Function.LeftInverse g f)
    {block : List Byte} (hblock : block.length = 8) {n : Nat} {start stop : Word}
    (hstop : (repeatTimes f n (startRounds start block)).sum = stop) :
    (repeatTimes g n
      (startRounds stop (repeatTimes f n (startRounds start block)).block)).block = block := by
  rw [startRounds_block, ← hstop, repeatTimes_leftInverse hround, block_startRounds hblock]

/-! ## Engine A (41_cipher_a.md R101 to R103, R108) -/

/-- `v1` is undone with the `v0` it was made with, then `v0` with the restored `v1`. -/
theorem aDecryptRound_aEncryptRound (k : Quad Word) :
    Function.LeftInverse (aDecryptRound k) (aEncryptRound k) := by
  intro r
  simp only [aDecryptRound, aEncryptRound, BitVec.add_sub_cancel]

theorem aEncryptRound_aDecryptRound (k : Quad Word) :
    Function.LeftInverse (aEncryptRound k) (aDecryptRound k) := by
  intro r
  simp only [aDecryptRound, aEncryptRound, BitVec.sub_add_cancel]

theorem aDecryptBlock_aEncryptBlock (k : Quad Word) {block : List Byte} (h : block.length = 8) :
    aDecryptBlock k (aEncryptBlock k block) = block :=
  block_roundTrip (aDecryptRound_aEncryptRound k) h
    ((sum_of_increment_rounds (sum_aEncryptRound k) block 32).trans delta_shift_five.symm)

theorem aEncryptBlock_aDecryptBlock (k : Quad Word) {block : List Byte} (h : block.length = 8) :
    aEncryptBlock k (aDecryptBlock k block) = block :=
  block_roundTrip (aEncryptRound_aDecryptRound k) h
    (sum_of_decrement_rounds (sum_aDecryptRound k) block (le_refl 32))

/-- Settles O24: each round of one direction undoes a round of the other. -/
theorem cipherARoundTrip : Obligations.CipherARoundTrip := by
  unfold Obligations.CipherARoundTrip
  exact fun k block h => ⟨aDecryptBlock_aEncryptBlock k h, aEncryptBlock_aDecryptBlock k h⟩

theorem toNat_fA (x sum ka kb : Word) : (fA x sum ka kb).toNat
    = ((x.toNat * 16 % 2 ^ 32 + ka.toNat) % 2 ^ 32) ^^^ ((x.toNat + sum.toNat) % 2 ^ 32)
      ^^^ ((x.toNat / 32 + kb.toNat) % 2 ^ 32) := by
  simp only [fA, BitVec.toNat_xor, BitVec.toNat_add, BitVec.toNat_shiftLeft,
    BitVec.toNat_ushiftRight, Nat.shiftLeft_eq, Nat.shiftRight_eq_div_pow]

/-- Settles O22: the words after each round of the loop are the words of the statement. -/
theorem roundsOfCipherA : Obligations.RoundsOfCipherA := by
  unfold Obligations.RoundsOfCipherA
  refine ⟨toNat_fA, fun k block h => ?_, fun k block h => ?_, delta_shift_five, by decide,
    deltaTimes_zero⟩
  · refine ⟨fun r => (repeatTimes (aEncryptRound k) r (startRounds 0 block)).v0,
      fun r => (repeatTimes (aEncryptRound k) r (startRounds 0 block)).v1,
      bytesToWords_of_length_eight h 0, fun r _ => ?_, rfl⟩
    have hsum := sum_of_increment_rounds (sum_aEncryptRound k) block r
    simp only [repeatTimes_succ', deltaTimes_succ, ← hsum]
    exact ⟨rfl, rfl⟩
  · refine ⟨fun j => (repeatTimes (aDecryptRound k) j (startRounds (delta <<< 5) block)).v0,
      fun j => (repeatTimes (aDecryptRound k) j (startRounds (delta <<< 5) block)).v1,
      bytesToWords_of_length_eight h _, fun j hj => ?_, rfl⟩
    have hsum := sum_of_decrement_rounds (sum_aDecryptRound k) block (Nat.le_of_lt hj)
    simp only [repeatTimes_succ', ← hsum]
    exact ⟨rfl, rfl⟩

/-! ### Equivalent keys (95_test_vectors.md section 2.1 (d)) -/

/-- The other bits are kept, and the carry out of bit 31 is lost (00_scope.md R11). -/
theorem xor_topBit (w : Word) : w ^^^ 0x80000000#32 = w + 0x80000000#32 := by
  apply BitVec.eq_of_toNat_eq
  have hword : (0x80000000#32).toNat = 2 ^ 31 := by decide
  rw [BitVec.toNat_xor, BitVec.toNat_add, hword]
  have hlow : (w.toNat ^^^ 2 ^ 31) % 2 ^ 31 = w.toNat % 2 ^ 31 := by
    rw [Nat.xor_mod_two_pow, Nat.mod_self, Nat.xor_zero]
  have htop : (w.toNat ^^^ 2 ^ 31) / 2 ^ 31 = 1 - w.toNat / 2 ^ 31 := by
    have hbit : w.toNat / 2 ^ 31 < 2 := by omega
    rw [Nat.xor_div_two_pow]
    interval_cases w.toNat / 2 ^ 31 <;> rfl
  omega

theorem add_xor_topBit (x w : Word) :
    x + (w ^^^ 0x80000000#32) = (x + w) ^^^ 0x80000000#32 := by
  rw [xor_topBit, xor_topBit, BitVec.add_assoc]

/-- Both flips reach `FA` as a flip of bit 31 of its value, and cancel. -/
theorem fA_xor_topBit (x sum ka kb : Word) :
    fA x sum (ka ^^^ 0x80000000#32) (kb ^^^ 0x80000000#32) = fA x sum ka kb := by
  have hcancel (p q r m : Word) : (p ^^^ m) ^^^ q ^^^ (r ^^^ m) = p ^^^ q ^^^ r := by
    calc (p ^^^ m) ^^^ q ^^^ (r ^^^ m) = p ^^^ q ^^^ r ^^^ (m ^^^ m) := by ac_rfl
      _ = p ^^^ q ^^^ r := by rw [BitVec.xor_self, BitVec.xor_zero]
  simp only [fA, add_xor_topBit]
  exact hcancel ..

/-- A round reads the key words in two pairs, each through `FA` (41_cipher_a.md R102). -/
theorem aEncryptBlock_congr {k k' : Quad Word}
    (hlow : ∀ x sum, fA x sum k.x0 k.x1 = fA x sum k'.x0 k'.x1)
    (hhigh : ∀ x sum, fA x sum k.x2 k.x3 = fA x sum k'.x2 k'.x3) (block : List Byte) :
    aEncryptBlock k block = aEncryptBlock k' block := by
  have hround : aEncryptRound k = aEncryptRound k' :=
    funext fun r => by simp only [aEncryptRound, hlow, hhigh]
  rw [aEncryptBlock, aEncryptBlock, hround]

/-- Settles O25: each of the two pairs gives the same `FA`. -/
theorem equivalentKeysOfCipherA : Obligations.EquivalentKeysOfCipherA := by
  unfold Obligations.EquivalentKeysOfCipherA
  intro k0 k1 k2 k3 block
  constructor
  · refine aEncryptBlock_congr (fun x sum => ?_) (fun x sum => ?_) block
    · exact fA_xor_topBit x sum k0 k1
    · rfl
  · refine aEncryptBlock_congr (fun x sum => ?_) (fun x sum => ?_) block
    · rfl
    · exact fA_xor_topBit x sum k2 k3

end Sys2Proof.Machine

namespace Sys2Proof.Machine

/-! ## The commands of engine A (41_cipher_a.md R104 to R107) -/

theorem instanceCheck_fail {valid : Bool} (h : valid = false) :
    (instanceCheck valid).fails = true := by rw [h]; rfl

theorem instanceCheck_pass {valid : Bool} (h : valid = true) :
    (instanceCheck valid).fails = false := by rw [h]; rfl

theorem exactLenCheck_fail {size len : Word} (h : len ≠ size) :
    (exactLenCheck size.toNat len).fails = true :=
  decide_eq_true fun hnat => h (BitVec.eq_of_toNat_eq hnat)

theorem exactLenCheck_pass {size len : Word} (h : len = size) :
    (exactLenCheck size.toNat len).fails = false := by
  rw [h]
  exact decide_eq_false (not_not.mpr rfl)

theorem keyLenCheck_fail {keyLen : Word} (h : keyLen ≠ 16#32) :
    (keyLenCheck keyLen).fails = true := exactLenCheck_fail h

theorem keyLenCheck_pass {keyLen : Word} (h : keyLen = 16#32) :
    (keyLenCheck keyLen).fails = false := exactLenCheck_pass h

/-- A transform that checks its `valid` flag and then what every command of format `X` checks, for
buffers of `size` bytes: each check decides when those before it pass (60_exceptions.md R179). -/
theorem transform_clauses {s : State} {valid : Bool} {size : Word} {dst : Nat} {dstLen : Word}
    {src : Nat} {srcLen : Word} {effect : State → State} {o : Host.Outcome State Fault Refusal}
    (ho : o = guarded (instanceCheck valid
      :: transformChecks s.cfg size.toNat dst dstLen src srcLen) effect s) :
    (valid = false → o = .next (s.answered .noInstance 0)) ∧
    (valid = true → srcLen ≠ size → o = .next (s.answered .bufferLength srcLen)) ∧
    (valid = true → srcLen = size → dstLen ≠ size → o = .next (s.answered .bufferLength dstLen)) ∧
    (valid = true → srcLen = size → dstLen = size → ¬InRange s.cfg src size.toNat →
      o = .next (s.answered .addressRange 1)) ∧
    (valid = true → srcLen = size → dstLen = size → InRange s.cfg src size.toNat →
      ¬InRange s.cfg dst size.toNat → o = .next (s.answered .addressRange 2)) ∧
    (valid = true → srcLen = size → dstLen = size → InRange s.cfg src size.toNat →
      InRange s.cfg dst size.toNat → o = .next (effect s)) := by
  subst ho
  refine ⟨fun hnone => guarded_fail (instanceCheck_fail hnone), ?_, ?_, ?_, ?_, ?_⟩
  all_goals
    intro hvalid
    rw [guarded_pass (instanceCheck_pass hvalid), transformChecks]
  · exact fun hsrc => guarded_fail (exactLenCheck_fail hsrc)
  all_goals
    intro hsrc
    rw [guarded_pass (exactLenCheck_pass hsrc)]
  · exact fun hdst => guarded_fail (exactLenCheck_fail hdst)
  all_goals
    intro hdst
    rw [guarded_pass (exactLenCheck_pass hdst)]
  · exact fun hread => guarded_fail (rangeCheck_fail hread)
  all_goals
    intro hread
    rw [guarded_pass (rangeCheck_pass hread)]
  · exact fun hwrite => guarded_fail (rangeCheck_fail hwrite)
  · exact fun hwrite => guarded_pass (rangeCheck_pass hwrite)

theorem exec_aConstruct (keyAddr : Nat) (keyLen : Word) (s : State) :
    exec (.aConstruct keyAddr keyLen) s =
      guarded [keyLenCheck keyLen, rangeCheck 0 s.cfg keyAddr 16]
        (fun s => complete { s with a := EngineA.construct (memReadKey s.mem keyAddr) }) s := rfl

theorem exec_aBlocksize (s : State) :
    exec .aBlocksize s =
      guarded [instanceCheck s.a.valid] (completeResult (BitVec.ofNat 32 blockSizeAB)) s := rfl

theorem exec_aEncrypt (dst : Nat) (dstLen : Word) (src : Nat) (srcLen : Word) (s : State) :
    exec (.aEncrypt dst dstLen src srcLen) s =
      guarded (instanceCheck s.a.valid :: transformChecks s.cfg blockSizeAB dst dstLen src srcLen)
        (fun s => storeAndComplete dst (aEncryptBlock s.a.k (memRead s.mem src blockSizeAB)) s) s :=
  rfl

theorem exec_aDecrypt (dst : Nat) (dstLen : Word) (src : Nat) (srcLen : Word) (s : State) :
    exec (.aDecrypt dst dstLen src srcLen) s =
      guarded (instanceCheck s.a.valid :: transformChecks s.cfg blockSizeAB dst dstLen src srcLen)
        (fun s => storeAndComplete dst (aDecryptBlock s.a.k (memRead s.mem src blockSizeAB)) s) s :=
  rfl

/-- Settles O26: the two checks in order, then the key words. -/
theorem aConstructCommand : Obligations.AConstructCommand := by
  unfold Obligations.AConstructCommand
  intro s keyAddr keyLen
  rw [exec_aConstruct]
  refine ⟨fun hlen => guarded_fail (keyLenCheck_fail hlen), fun hlen hrange => ?_,
    fun hlen hrange => ?_⟩
  · rw [guarded_pass (keyLenCheck_pass hlen)]
    exact guarded_fail (rangeCheck_fail hrange)
  · rw [guarded_pass (keyLenCheck_pass hlen), guarded_pass (rangeCheck_pass hrange)]
    rfl

/-- Settles O27: the one check, then `RESULT`. -/
theorem aBlocksizeCommand : Obligations.ABlocksizeCommand := by
  unfold Obligations.ABlocksizeCommand
  intro s
  rw [exec_aBlocksize]
  refine ⟨fun hnone => guarded_fail (instanceCheck_fail hnone), fun hvalid => ?_⟩
  rw [guarded_pass (instanceCheck_pass hvalid)]
  rfl

/-- Settles O28: the five checks in order, then one `MemWrite` of the encrypted block. -/
theorem aEncryptCommand : Obligations.AEncryptCommand := by
  unfold Obligations.AEncryptCommand
  intro s dst dstLen src srcLen
  exact transform_clauses (size := 8#32) (exec_aEncrypt dst dstLen src srcLen s)

/-- Settles O29: the five checks in order, then one `MemWrite` of the decrypted block. -/
theorem aDecryptCommand : Obligations.ADecryptCommand := by
  unfold Obligations.ADecryptCommand
  intro s dst dstLen src srcLen
  exact transform_clauses (size := 8#32) (exec_aDecrypt dst dstLen src srcLen s)

end Sys2Proof.Machine

namespace Sys2Proof.Machine

/-! ## What the transforms depend on (41_cipher_a.md R109, 42_cipher_b.md R131, 43_cipher_c.md R152) -/

/-- No invariant is needed where the length read is the length stored. -/
theorem memRead_blockFunction_of_transform_ok {s t : State} {i : Instr} (hok : t.status = .ok)
    (hi : i.format = .x) (h : exec i s = .next t) :
    memRead t.mem (destination s i).1 (blockFunction s i (sourceBlock s i)).length
      = blockFunction s i (sourceBlock s i) := by
  rw [(exec_ok h hok).2, effectOf_transform s hi, storeAndComplete_mem, memRead_memWrite_same]

theorem memRead_congr_of_transforms_ok {s s' t t' : State} {i i' : Instr} (hok : t.status = .ok)
    (hok' : t'.status = .ok) (hi : i.format = .x) (hi' : i'.format = .x) {len : Nat}
    (hlen : (blockFunction s i (sourceBlock s i)).length = len)
    (hfunction : blockFunction s i = blockFunction s' i')
    (hblock : sourceBlock s i = sourceBlock s' i')
    (h : exec i s = .next t) (h' : exec i' s' = .next t') :
    memRead t.mem (destination s i).1 len = memRead t'.mem (destination s' i').1 len := by
  subst hlen
  rw [memRead_blockFunction_of_transform_ok hok hi h, hfunction, hblock,
    memRead_blockFunction_of_transform_ok hok' hi' h']

/-- Settles O56: the stored bytes are the block function's of the source block, and the two name nothing
but the key words, `C.BS` and the source bytes. -/
theorem transformsDependOnlyOnKeyAndBlock : Obligations.TransformsDependOnlyOnKeyAndBlock := by
  unfold Obligations.TransformsDependOnlyOnKeyAndBlock
  intro s s' t t' d d' a a' dl dl' al al' hok hok'
  have hread {i i' : Instr} :=
    memRead_congr_of_transforms_ok (s := s) (s' := s') (i := i) (i' := i') hok hok'
  refine ⟨fun hk hblock => ?_, fun hk hblock => ?_, fun hs hk hbs hblock => ?_⟩
  · exact ⟨hread rfl rfl (length_aEncryptBlock _ _) (congrArg aEncryptBlock hk) hblock,
      hread rfl rfl (length_aDecryptBlock _ _) (congrArg aDecryptBlock hk) hblock⟩
  · exact ⟨hread rfl rfl (length_bEncryptBlock _ _) (congrArg bEncryptBlock hk) hblock,
      hread rfl rfl (length_bDecryptBlock _ _) (congrArg bDecryptBlock hk) hblock⟩
  · have hinv := (inv_iff s).mp hs
    have hsource : memRead s.mem a s.c.bs.toNat = memRead s'.mem a' s'.c.bs.toNat := hbs ▸ hblock
    refine ⟨hread rfl rfl (length_blockFunction hinv rfl) ?_ hsource,
      hread rfl rfl (length_blockFunction hinv rfl) ?_ hsource⟩
    · simp only [blockFunction, hk, hbs]
    · simp only [blockFunction, hk, hbs]

/-! ## The round trips of engines B and C, decrypting what was encrypted (42_cipher_b.md R130,
43_cipher_c.md R151) -/

/-- `v1` is undone with the `sum` after the increment, `v0` with the one before it. -/
theorem bDecryptRound_bEncryptRound (k : Quad Word) :
    Function.LeftInverse (bDecryptRound k) (bEncryptRound k) := by
  intro r
  simp only [bDecryptRound, bEncryptRound, BitVec.add_sub_cancel]

theorem bDecryptBlock_bEncryptBlock (k : Quad Word) {block : List Byte} (h : block.length = 8) :
    bDecryptBlock k (bEncryptBlock k block) = block :=
  block_roundTrip (bDecryptRound_bEncryptRound k) h
    ((sum_of_increment_rounds (sum_bEncryptRound k) block 32).trans delta_shift_five.symm)

/-- No word of a ring of at least two is its own neighbour. -/
theorem add_mod_ne_self {n p d : Nat} (hp : p < n) (hd : 0 < d) (hdn : d < n) : (p + d) % n ≠ p := by
  by_cases hwrap : p + d < n
  · rw [Nat.mod_eq_of_lt hwrap]
    omega
  · rw [Nat.mod_eq_sub_mod (by omega), Nat.mod_eq_of_lt (by omega)]
    omega

theorem wordAt_set_of_ne {w : List Word} {p i : Nat} (v : Word) (h : i ≠ p) :
    wordAt (w.set p v) i = wordAt w i := by
  rw [wordAt, wordAt, List.getD_eq_getElem?_getD, List.getElem?_set_ne h.symm,
    List.getD_eq_getElem?_getD]

/-- The mixing value for a word does not depend on that word (R144, R145). -/
theorem mixAt_set (k : Quad Word) {n p : Nat} (sum : Word) (e : BitVec 2) (w : List Word) (v : Word)
    (hn : 2 ≤ n) (hp : p < n) : mixAt k n sum e (w.set p v) p = mixAt k n sum e w p := by
  have hright : (p + 1) % n ≠ p := add_mod_ne_self hp (by omega) (by omega)
  have hleft : (p + n - 1) % n ≠ p := by
    rw [Nat.add_sub_assoc (by omega)]
    exact add_mod_ne_self hp (by omega) (by omega)
  rw [mixAt, mixAt, wordAt_set_of_ne v hright, wordAt_set_of_ne v hleft]

/-- Where there is no word at `p`, neither step writes one. -/
theorem cDecryptStep_cEncryptStep (k : Quad Word) {n p : Nat} (sum : Word) (e : BitVec 2)
    (w : List Word) (hn : 2 ≤ n) (hp : p < n) :
    cDecryptStep k n sum e (cEncryptStep k n sum e w p) p = w := by
  rw [cDecryptStep, cEncryptStep, mixAt_set k sum e w _ hn hp, List.set_set]
  by_cases hin : p < w.length
  · simp [wordAt, hin]
  · exact List.set_eq_of_length_le (by omega)

/-- Steps are undone in the opposite order of their positions. -/
theorem foldl_reverse_foldl {α : Type} {f g : List Word → α → List Word} {ps : List α}
    (h : ∀ p ∈ ps, ∀ w, g (f w p) p = w) (w : List Word) :
    ps.reverse.foldl g (ps.foldl f w) = w := by
  induction ps generalizing w with
  | nil => rfl
  | cons p rest ih =>
    rw [List.foldl_cons, List.reverse_cons, List.foldl_append,
      ih fun q hq => h q (List.mem_cons_of_mem _ hq)]
    exact h p List.mem_cons_self w

theorem cDecryptRound_cEncryptRound (k : Quad Word) {n : Nat} (hn : 2 ≤ n) :
    Function.LeftInverse (cDecryptRound k n) (cEncryptRound k n) := by
  intro r
  rw [cDecryptRound, cEncryptRound, BitVec.add_sub_cancel,
    foldl_reverse_foldl fun p hp w =>
      cDecryptStep_cEncryptStep k _ _ w hn (List.mem_range.mp hp)]

@[simp] theorem sum_cEncryptRound (k : Quad Word) (n : Nat) (r : RingState) :
    (cEncryptRound k n r).sum = r.sum + delta := rfl

theorem sum_cEncryptRounds (k : Quad Word) (n q : Nat) (w : List Word) :
    (repeatTimes (cEncryptRound k n) q ⟨w, 0⟩).sum = deltaTimes q := by
  rw [sum_repeatTimes_of_increment (sum := RingState.sum) (sum_cEncryptRound k n)]
  exact BitVec.zero_add _

theorem cDecryptBlock_cEncryptBlock (k : Quad Word) {n : Nat} {block : List Byte} (hn : 2 ≤ n)
    (hblock : block.length % 4 = 0) : cDecryptBlock k n (cEncryptBlock k n block) = block := by
  rw [cDecryptBlock, cEncryptBlock, bytesToWords_wordsToBytes,
    ← sum_cEncryptRounds k n (roundsC n) (bytesToWords block),
    repeatTimes_leftInverse (cDecryptRound_cEncryptRound k hn), wordsToBytes_bytesToWords hblock]

/-! ## One transform after another (20_memory.md R58) -/

/-- A transform leaves every register alone that another's operands and block function come from. -/
theorem destination_effectOf_transform {i : Instr} (s : State) (hi : i.format = .x) (j : Instr) :
    destination (effectOf s i) j = destination s j := by
  rw [effectOf_transform s hi]
  cases j <;> rfl

theorem blockFunction_effectOf_transform {i : Instr} (s : State) (hi : i.format = .x) (j : Instr) :
    blockFunction (effectOf s i) j = blockFunction s j := by
  rw [effectOf_transform s hi]
  cases j <;> rfl

/-- The second transform reads the block the first one stored, wherever it then writes. -/
theorem memRead_of_transform_after_transform {s t u : State} {i j : Instr} (hs : s.inv = true)
    (ht : t.status = .ok) (hu : u.status = .ok) (hexec : exec i s = .next t)
    (hexec' : exec j t = .next u) (hi : i.format = .x) (hj : j.format = .x)
    (hplace : sourceAddr j = (destination s i).1)
    (hsize : (destination s j).2 = (destination s i).2) :
    memRead u.mem (destination s j).1 (destination s i).2
      = blockFunction s j (blockFunction s i (sourceBlock s i)) := by
  have hinv := (inv_iff s).mp hs
  obtain ⟨hpass, rfl⟩ := exec_ok hexec ht
  have hsecond := memRead_of_transform_ok ((inv_iff _).mpr (inv_effectOf hinv hpass)) hu hj hexec'
  rw [destination_effectOf_transform s hi, blockFunction_effectOf_transform s hi, sourceBlock,
    destination_effectOf_transform s hi, hplace, hsize, memRead_effectOf_transform hinv hi] at hsecond
  exact hsecond

theorem two_le_words_of_validC {s : State} (hs : s.Invariant) (hvalid : s.c.valid = true) :
    2 ≤ s.c.bs.toNat / 4 := by
  obtain ⟨hmin, -, -⟩ := (inv_iff_of_validC hvalid).mp hs.c
  omega

/-- Settles O59: the decryption's block function undoes the encryption's; for engine C because an OK
encryption found `C.valid` set, and its block then has at least two words. -/
theorem decryptCommandUndoesEncryptCommand : Obligations.DecryptCommandUndoesEncryptCommand := by
  unfold Obligations.DecryptCommandUndoesEncryptCommand
  intro s t u d d' a dl dl' al al' hs ht hu
  have hread {i j : Instr} := memRead_of_transform_after_transform (i := i) (j := j) hs ht hu
  refine ⟨fun hexec hexec' => ?_, fun hexec hexec' => ?_, fun hexec hexec' => ?_⟩
  · exact (hread hexec hexec' rfl rfl rfl rfl).trans
      (aDecryptBlock_aEncryptBlock s.a.k (length_memRead s.mem a 8))
  · exact (hread hexec hexec' rfl rfl rfl rfl).trans
      (bDecryptBlock_bEncryptBlock s.b.k (length_memRead s.mem a 8))
  · have hinv := (inv_iff s).mp hs
    have hvalid : s.c.valid = true := by
      have hpass := firstFailure_none (exec_ok hexec ht).1 (instanceCheck s.c.valid)
        List.mem_cons_self
      simpa [instanceCheck] using hpass
    refine (hread hexec hexec' rfl rfl rfl rfl).trans
      (cDecryptBlock_cEncryptBlock s.c.k (two_le_words_of_validC hinv hvalid) ?_)
    rw [sourceBlock, length_memRead]
    exact bs_mod_four hinv

end Sys2Proof.Machine

namespace Sys2Proof.Machine

/-! ## Engine B (42_cipher_b.md R121 to R125, R130) -/

theorem bEncryptRound_bDecryptRound (k : Quad Word) :
    Function.LeftInverse (bEncryptRound k) (bDecryptRound k) := by
  intro r
  simp only [bDecryptRound, bEncryptRound, BitVec.sub_add_cancel]

theorem bEncryptBlock_bDecryptBlock (k : Quad Word) {block : List Byte} (h : block.length = 8) :
    bEncryptBlock k (bDecryptBlock k block) = block :=
  block_roundTrip (bEncryptRound_bDecryptRound k) h
    (sum_of_decrement_rounds (sum_bDecryptRound k) block (le_refl 32))

/-- Settles O32: each round of one direction undoes a round of the other. -/
theorem cipherBRoundTrip : Obligations.CipherBRoundTrip := by
  unfold Obligations.CipherBRoundTrip
  exact fun k block h => ⟨bDecryptBlock_bEncryptBlock k h, bEncryptBlock_bDecryptBlock k h⟩

theorem toNat_fB (x : Word) : (fB x).toNat
    = (((x.toNat * 16 % 2 ^ 32) ^^^ (x.toNat / 32)) + x.toNat) % 2 ^ 32 := by
  simp only [fB, BitVec.toNat_xor, BitVec.toNat_add, BitVec.toNat_shiftLeft,
    BitVec.toNat_ushiftRight, Nat.shiftLeft_eq, Nat.shiftRight_eq_div_pow]

/-- Settles O31: the words after each round of the loop are the words of the statement. The `sum` a round
leaves is the one its second update reads, in both directions. -/
theorem roundsOfCipherB : Obligations.RoundsOfCipherB := by
  unfold Obligations.RoundsOfCipherB
  refine ⟨toNat_fB, fun k block h => ?_, fun k block h => ?_, delta_shift_five, by decide,
    deltaTimes_zero⟩
  · refine ⟨fun r => (repeatTimes (bEncryptRound k) r (startRounds 0 block)).v0,
      fun r => (repeatTimes (bEncryptRound k) r (startRounds 0 block)).v1,
      bytesToWords_of_length_eight h 0, fun r _ => ?_, rfl⟩
    have hsum := sum_of_increment_rounds (sum_bEncryptRound k) block r
    simp only [repeatTimes_succ', deltaTimes_succ, ← hsum]
    exact ⟨rfl, rfl⟩
  · refine ⟨fun j => (repeatTimes (bDecryptRound k) j (startRounds (delta <<< 5) block)).v0,
      fun j => (repeatTimes (bDecryptRound k) j (startRounds (delta <<< 5) block)).v1,
      bytesToWords_of_length_eight h _, fun j hj => ?_, rfl⟩
    have hsum := sum_of_decrement_rounds (sum_bDecryptRound k) block (Nat.le_of_lt hj)
    have hnext := sum_of_decrement_rounds (sum_bDecryptRound k) block hj
    rw [repeatTimes_succ', sum_bDecryptRound, Nat.succ_sub_succ] at hnext
    simp only [repeatTimes_succ', ← hsum, ← hnext]
    exact ⟨rfl, rfl⟩

/-! ### The key indices (R121) -/

theorem toNat_idxLo (sum : Word) : (idxLo sum).toNat = sum.toNat % 4 :=
  BitVec.toNat_setWidth 2 sum

theorem toNat_idxHi (sum : Word) : (idxHi sum).toNat = sum.toNat / 2 ^ 11 % 4 := by
  rw [idxHi, BitVec.toNat_setWidth, BitVec.toNat_ushiftRight, Nat.shiftRight_eq_div_pow]

theorem getElem?_toList_quad {α : Type} (q : Quad α) (i : BitVec 2) :
    q.toList[i.toNat]? = some (q.get i) := by
  have hi : i.toNat < 4 := i.isLt
  unfold Quad.get
  interval_cases i.toNat <;> rfl

/-- Settles O30: the indices as numbers; any index selects the word at its number. -/
theorem keyIndicesOfB : Obligations.KeyIndicesOfB := by
  unfold Obligations.KeyIndicesOfB
  exact fun k sum => ⟨toNat_idxLo sum, toNat_idxHi sum, getElem?_toList_quad k _,
    getElem?_toList_quad k _⟩

/-! ## The commands of engine B (42_cipher_b.md R122, R126 to R129, R131) -/

theorem exec_bConstruct (keyAddr : Nat) (keyLen : Word) (s : State) :
    exec (.bConstruct keyAddr keyLen) s =
      guarded [keyLenCheck keyLen, rangeCheck 0 s.cfg keyAddr 16]
        (fun s => complete { s with b := EngineB.construct (memReadKey s.mem keyAddr) }) s := rfl

theorem exec_bBlocksize (s : State) :
    exec .bBlocksize s =
      guarded [instanceCheck s.b.valid] (completeResult (BitVec.ofNat 32 blockSizeAB)) s := rfl

theorem exec_bEncrypt (dst : Nat) (dstLen : Word) (src : Nat) (srcLen : Word) (s : State) :
    exec (.bEncrypt dst dstLen src srcLen) s =
      guarded (instanceCheck s.b.valid :: wipedCheck s.b.wiped
          :: transformChecks s.cfg blockSizeAB dst dstLen src srcLen)
        (fun s => storeAndComplete dst (bEncryptBlock s.b.k (memRead s.mem src blockSizeAB)) s) s :=
  rfl

theorem exec_bDecrypt (dst : Nat) (dstLen : Word) (src : Nat) (srcLen : Word) (s : State) :
    exec (.bDecrypt dst dstLen src srcLen) s =
      guarded (instanceCheck s.b.valid :: wipedCheck s.b.wiped
          :: transformChecks s.cfg blockSizeAB dst dstLen src srcLen)
        (fun s => storeAndComplete dst (bDecryptBlock s.b.k (memRead s.mem src blockSizeAB)) s) s :=
  rfl

theorem exec_bWipe (s : State) :
    exec .bWipe s =
      guarded [instanceCheck s.b.valid] (fun s => complete { s with b := s.b.wipe }) s := rfl

/-- Settles O33: the two checks in order, then the key bytes, the key words and both flags. -/
theorem bConstructCommand : Obligations.BConstructCommand := by
  unfold Obligations.BConstructCommand
  intro s keyAddr keyLen
  rw [exec_bConstruct]
  refine ⟨fun hlen => guarded_fail (keyLenCheck_fail hlen), fun hlen hrange => ?_,
    fun hlen hrange => ?_⟩
  · rw [guarded_pass (keyLenCheck_pass hlen)]
    exact guarded_fail (rangeCheck_fail hrange)
  · rw [guarded_pass (keyLenCheck_pass hlen), guarded_pass (rangeCheck_pass hrange)]
    rfl

/-- Settles O34: the one check, which is not about `B.wiped`, then `RESULT`. -/
theorem bBlocksizeCommand : Obligations.BBlocksizeCommand := by
  unfold Obligations.BBlocksizeCommand
  intro s
  rw [exec_bBlocksize]
  refine ⟨fun hnone => guarded_fail (instanceCheck_fail hnone), fun hvalid => ?_⟩
  rw [guarded_pass (instanceCheck_pass hvalid)]
  rfl

/-- An engine B transform: `KEY_WIPED` stands between `NO_INSTANCE` and the checks every transform has
(60_exceptions.md R179), and an engine that is not wiped is checked as any other is. -/
theorem bTransform_clauses {s : State} {dst : Nat} {dstLen : Word} {src : Nat} {srcLen : Word}
    {effect : State → State} {o : Host.Outcome State Fault Refusal}
    (ho : o = guarded (instanceCheck s.b.valid :: wipedCheck s.b.wiped
      :: transformChecks s.cfg blockSizeAB dst dstLen src srcLen) effect s) :
    (s.b.valid = false → o = .next (s.answered .noInstance 0)) ∧
    (s.b.valid = true → s.b.wiped = true → o = .next (s.answered .keyWiped 0)) ∧
    (s.b.valid = true → s.b.wiped = false → srcLen ≠ 8#32 →
      o = .next (s.answered .bufferLength srcLen)) ∧
    (s.b.valid = true → s.b.wiped = false → srcLen = 8#32 → dstLen ≠ 8#32 →
      o = .next (s.answered .bufferLength dstLen)) ∧
    (s.b.valid = true → s.b.wiped = false → srcLen = 8#32 → dstLen = 8#32 → ¬InRange s.cfg src 8 →
      o = .next (s.answered .addressRange 1)) ∧
    (s.b.valid = true → s.b.wiped = false → srcLen = 8#32 → dstLen = 8#32 → InRange s.cfg src 8 →
      ¬InRange s.cfg dst 8 → o = .next (s.answered .addressRange 2)) ∧
    (s.b.valid = true → s.b.wiped = false → srcLen = 8#32 → dstLen = 8#32 → InRange s.cfg src 8 →
      InRange s.cfg dst 8 → o = .next (effect s)) := by
  subst ho
  refine ⟨fun hnone => guarded_fail (instanceCheck_fail hnone), fun hvalid hwiped => ?_,
    ?_, ?_, ?_, ?_, ?_⟩
  · rw [guarded_pass (instanceCheck_pass hvalid)]
    exact guarded_fail hwiped
  all_goals
    intro hvalid hkey
    rw [guarded_pass (instanceCheck_pass hvalid), guarded_pass (c := wipedCheck s.b.wiped) hkey,
      ← guarded_pass (instanceCheck_pass hvalid)]
    obtain ⟨-, hsrcLen, hdstLen, hsrcRange, hdstRange, hpass⟩ :=
      transform_clauses (s := s) (size := 8#32) (dst := dst) (dstLen := dstLen) (src := src)
        (srcLen := srcLen) (effect := effect) (valid := s.b.valid) rfl
  · exact hsrcLen hvalid
  · exact hdstLen hvalid
  · exact hsrcRange hvalid
  · exact hdstRange hvalid
  · exact hpass hvalid

/-- Settles O35: the six checks in order, then one `MemWrite` of the encrypted block. -/
theorem bEncryptCommand : Obligations.BEncryptCommand := by
  unfold Obligations.BEncryptCommand
  intro s dst dstLen src srcLen
  exact bTransform_clauses (exec_bEncrypt dst dstLen src srcLen s)

/-- Settles O36: the six checks in order, then one `MemWrite` of the decrypted block. -/
theorem bDecryptCommand : Obligations.BDecryptCommand := by
  unfold Obligations.BDecryptCommand
  intro s dst dstLen src srcLen
  exact bTransform_clauses (exec_bDecrypt dst dstLen src srcLen s)

theorem flatten_zeroKey :
    (zeroKey.toList.map Quad.toList).flatten = List.replicate 16 (0 : Byte) := rfl

/-- Settles O37: the one check, which is not about `B.wiped`, then zeros; `B.valid` is as the check
found it. -/
theorem bWipeCommand : Obligations.BWipeCommand := by
  unfold Obligations.BWipeCommand
  intro s
  rw [exec_bWipe]
  refine ⟨fun hnone => guarded_fail (instanceCheck_fail hnone), fun hvalid => ?_, fun j hj => ?_⟩
  · rw [guarded_pass (instanceCheck_pass hvalid), guarded_nil, EngineB.wipe, hvalid]
    rfl
  · rw [flatten_zeroKey, List.getElem?_replicate_of_lt hj]

/-- Settles O57: no check reads `B.KB`, and the effect of a command that writes no engine register passes
it through unread. -/
theorem rawKeyBytesAreNeverRead : Obligations.RawKeyBytesAreNeverRead := by
  unfold Obligations.RawKeyBytesAreNeverRead
  intro i s t kb hwrites h
  obtain ⟨hchecks, heffect⟩ :
      checksOf { s with b := { s.b with kb := kb } } i = checksOf s i ∧
      effectOf { s with b := { s.b with kb := kb } } i
        = { effectOf s i with b := { (effectOf s i).b with kb := kb } } := by
    cases i with
    | aConstruct | bConstruct | bWipe | cConstruct => cases hwrites
    | _ => exact ⟨rfl, rfl⟩
  exact exec_of_commutes (f := fun u => { u with b := { u.b with kb := kb } }) h hchecks
    (fun _ _ => rfl) heffect

end Sys2Proof.Machine

namespace Sys2Proof.Machine

/-! ## The ring of words of engine C (43_cipher_c.md R140, R144, R145) -/

theorem wordAt_set_same {w : List Word} {p : Nat} (v : Word) (hp : p < w.length) :
    wordAt (w.set p v) p = v := by
  simp [wordAt, hp]

theorem map_wordAt_range {w : List Word} {n : Nat} (h : w.length = n) :
    (List.range n).map (wordAt w) = w := by
  subst h
  apply List.ext_getElem
  · simp
  · intro i _ hi
    simp [wordAt, hi]

theorem right_neighbour {n p : Nat} (hp : p < n) : (p + 1) % n = if p + 1 = n then 0 else p + 1 := by
  split
  next hlast => rw [hlast, Nat.mod_self]
  next hinner => exact Nat.mod_eq_of_lt (by omega)

theorem left_neighbour {n p : Nat} (hp : p < n) :
    (p + n - 1) % n = if p = 0 then n - 1 else p - 1 := by
  split
  next hfirst => rw [hfirst, Nat.zero_add, Nat.mod_eq_of_lt (by omega)]
  next hinner =>
    rw [show p + n - 1 = p - 1 + n from by omega, Nat.add_mod_right, Nat.mod_eq_of_lt (by omega)]

theorem length_repeatTimes {f : RingState → RingState} (h : ∀ r, (f r).w.length = r.w.length) (m : Nat)
    (r : RingState) : (repeatTimes f m r).w.length = r.w.length :=
  repeatTimes_keeps (P := fun r' => r'.w.length = r.w.length) (fun r' hr => (h r').trans hr) m r rfl

@[simp] theorem length_foldl_cEncryptStep (k : Quad Word) (n : Nat) (sum : Word) (e : BitVec 2)
    (ps : List Nat) (w : List Word) : (ps.foldl (cEncryptStep k n sum e) w).length = w.length :=
  length_foldl_set _ (fun _ _ => List.length_set) ps w

@[simp] theorem length_foldl_cDecryptStep (k : Quad Word) (n : Nat) (sum : Word) (e : BitVec 2)
    (ps : List Nat) (w : List Word) : (ps.foldl (cDecryptStep k n sum e) w).length = w.length :=
  length_foldl_set _ (fun _ _ => List.length_set) ps w

/-! ## The round trip of engine C, encrypting what was decrypted (43_cipher_c.md R151) -/

theorem cEncryptStep_cDecryptStep (k : Quad Word) {n p : Nat} (sum : Word) (e : BitVec 2)
    (w : List Word) (hn : 2 ≤ n) (hp : p < n) :
    cEncryptStep k n sum e (cDecryptStep k n sum e w p) p = w := by
  rw [cEncryptStep, cDecryptStep, mixAt_set k sum e w _ hn hp, List.set_set]
  by_cases hin : p < w.length
  · simp [wordAt, hin]
  · exact List.set_eq_of_length_le (by omega)

theorem cEncryptRound_cDecryptRound (k : Quad Word) {n : Nat} (hn : 2 ≤ n) :
    Function.LeftInverse (cEncryptRound k n) (cDecryptRound k n) := by
  intro r
  have hpass (sum : Word) (e : BitVec 2) := foldl_reverse_foldl (ps := (List.range n).reverse)
    fun p hp w => cEncryptStep_cDecryptStep k sum e w hn (List.mem_range.mp (List.mem_reverse.mp hp))
  simp only [List.reverse_reverse] at hpass
  rw [cEncryptRound, cDecryptRound, BitVec.sub_add_cancel, hpass]

@[simp] theorem sum_cDecryptRound (k : Quad Word) (n : Nat) (r : RingState) :
    (cDecryptRound k n r).sum = r.sum - delta := rfl

theorem sum_cDecryptRounds (k : Quad Word) (n : Nat) {q j : Nat} (w : List Word) (hj : j ≤ q) :
    (repeatTimes (cDecryptRound k n) j ⟨w, deltaTimes q⟩).sum = deltaTimes (q - j) := by
  rw [sum_repeatTimes_of_decrement (sum := RingState.sum) (sum_cDecryptRound k n), deltaTimes_sub hj]

theorem cEncryptBlock_cDecryptBlock (k : Quad Word) {n : Nat} {block : List Byte} (hn : 2 ≤ n)
    (hblock : block.length % 4 = 0) : cEncryptBlock k n (cDecryptBlock k n block) = block := by
  have hstop : (repeatTimes (cDecryptRound k n) (roundsC n)
      ⟨bytesToWords block, deltaTimes (roundsC n)⟩).sum = 0 := by
    rw [sum_cDecryptRounds k n _ (le_refl (roundsC n)), Nat.sub_self]
    rfl
  rw [cEncryptBlock, cDecryptBlock, bytesToWords_wordsToBytes, ← hstop,
    repeatTimes_leftInverse (cEncryptRound_cDecryptRound k hn), wordsToBytes_bytesToWords hblock]

/-- Settles O41: each round of one direction undoes a round of the other, position by position. -/
theorem cipherCRoundTrip : Obligations.CipherCRoundTrip := by
  unfold Obligations.CipherCRoundTrip
  intro k n block hn hlen
  have hblock : block.length % 4 = 0 := by omega
  exact ⟨cDecryptBlock_cEncryptBlock k hn hblock, cEncryptBlock_cDecryptBlock k hn hblock⟩

/-! ## The carried-variable form (43_cipher_c.md R150)

At every update the carried word is the word of the ring written last: the left neighbour of the next
position going forward, the right one going backward. -/

/-- The ring with a copy of its word at `i` carried along. -/
def carrying (i : Nat) (r : RingState) : CarriedState := ⟨r.w, wordAt r.w i, r.sum⟩

theorem carriedEncryptStep_carrying (k : Quad Word) (n : Nat) (sum : Word) (e : BitVec 2)
    {w : List Word} {p : Nat} (hp : p < w.length) :
    carriedEncryptStep k e ((p + 1) % n) p (carrying ((p + n - 1) % n) ⟨w, sum⟩)
      = carrying p ⟨cEncryptStep k n sum e w p, sum⟩ := by
  simp only [carriedEncryptStep, cEncryptStep, carrying, mixAt, wordAt_set_same _ hp]

theorem carriedDecryptStep_carrying (k : Quad Word) (n : Nat) (sum : Word) (e : BitVec 2)
    {w : List Word} {p : Nat} (hp : p < w.length) :
    carriedDecryptStep k e ((p + n - 1) % n) p (carrying ((p + 1) % n) ⟨w, sum⟩)
      = carrying p ⟨cDecryptStep k n sum e w p, sum⟩ := by
  simp only [carriedDecryptStep, cDecryptStep, carrying, mixAt, wordAt_set_same _ hp]

/-- The pass over the positions below `m`. -/
theorem carriedEncryptPass_carrying (k : Quad Word) (sum : Word) (e : BitVec 2) {n : Nat} {w : List Word}
    (hlen : w.length = n) {m : Nat} (hm : m < n) :
    (List.range m).foldl (fun r p => carriedEncryptStep k e (p + 1) p r) (carrying (n - 1) ⟨w, sum⟩)
      = carrying ((m + n - 1) % n) ⟨(List.range m).foldl (cEncryptStep k n sum e) w, sum⟩ := by
  induction m with
  | zero =>
    rw [left_neighbour hm]
    rfl
  | succ m ih =>
    have hstep := carriedEncryptStep_carrying k n sum e (p := m)
      (w := (List.range m).foldl (cEncryptStep k n sum e) w)
      (by rw [length_foldl_cEncryptStep]; omega)
    rw [Nat.mod_eq_of_lt hm] at hstep
    simp only [List.range_succ, List.foldl_append, List.foldl_cons, List.foldl_nil,
      ih (by omega), hstep]
    rw [left_neighbour hm, if_neg (Nat.succ_ne_zero m), Nat.add_sub_cancel]

/-- The pass from position `m` down to 1. -/
theorem carriedDecryptPass_carrying (k : Quad Word) (sum : Word) (e : BitVec 2) {n : Nat} {w : List Word}
    (hlen : w.length = n) {m : Nat} (hm : m < n) :
    (List.range m).reverse.foldl (fun r p => carriedDecryptStep k e p (p + 1) r)
        (carrying ((m + 1) % n) ⟨w, sum⟩)
      = carrying (1 % n)
        ⟨((List.range m).map Nat.succ).reverse.foldl (cDecryptStep k n sum e) w, sum⟩ := by
  induction m generalizing w with
  | zero => rfl
  | succ m ih =>
    have hstep := carriedDecryptStep_carrying k n sum e (w := w) (p := m + 1) (by omega)
    rw [left_neighbour hm, if_neg (Nat.succ_ne_zero m), Nat.add_sub_cancel] at hstep
    have hrest := ih (w := cDecryptStep k n sum e w (m + 1)) (List.length_set.trans hlen) (by omega)
    rw [Nat.mod_eq_of_lt hm] at hrest
    simp only [List.range_succ, List.map_append, List.map_cons, List.map_nil, List.reverse_append,
      List.reverse_cons, List.reverse_nil, List.nil_append, List.cons_append, List.foldl_cons,
      Nat.succ_eq_add_one, hstep, hrest]

/-- The last position's update takes the new `W[0]` and closes the ring. -/
theorem carriedEncryptPass_closes (k : Quad Word) (sum : Word) (e : BitVec 2) {n : Nat}
    {w : List Word} (hn : 2 ≤ n) (hlen : w.length = n) :
    carriedEncryptStep k e 0 (n - 1)
        ((List.range (n - 1)).foldl (fun r p => carriedEncryptStep k e (p + 1) p r)
          (carrying (n - 1) ⟨w, sum⟩))
      = carrying (n - 1) ⟨(List.range n).foldl (cEncryptStep k n sum e) w, sum⟩ := by
  obtain ⟨m, rfl⟩ : ∃ m, n = m + 1 := ⟨n - 1, by omega⟩
  have hlast := carriedEncryptStep_carrying k (m + 1) sum e (p := m)
    (w := (List.range m).foldl (cEncryptStep k (m + 1) sum e) w)
    (by rw [length_foldl_cEncryptStep]; omega)
  rw [Nat.mod_self, ← carriedEncryptPass_carrying k sum e hlen (Nat.lt_succ_self m)] at hlast
  rw [List.range_succ, List.foldl_append]
  exact hlast

/-- The undo of `W[0]` takes the restored `W[n-1]` and closes the ring. -/
theorem carriedDecryptPass_closes (k : Quad Word) (sum : Word) (e : BitVec 2) {n : Nat}
    {w : List Word} (hn : 2 ≤ n) (hlen : w.length = n) :
    carriedDecryptStep k e (n - 1) 0
        ((List.range (n - 1)).reverse.foldl (fun r p => carriedDecryptStep k e p (p + 1) r)
          (carrying 0 ⟨w, sum⟩))
      = carrying 0 ⟨(List.range n).reverse.foldl (cDecryptStep k n sum e) w, sum⟩ := by
  obtain ⟨m, rfl⟩ : ∃ m, n = m + 1 := ⟨n - 1, by omega⟩
  have hpass := carriedDecryptPass_carrying k sum e hlen (Nat.lt_succ_self m)
  have hfirst := carriedDecryptStep_carrying k (m + 1) sum e (p := 0)
    (w := ((List.range m).map Nat.succ).reverse.foldl (cDecryptStep k (m + 1) sum e) w)
    (by rw [length_foldl_cDecryptStep]; omega)
  rw [left_neighbour (Nat.succ_pos m), if_pos rfl, ← hpass, Nat.mod_self] at hfirst
  rw [List.range_succ_eq_map, List.reverse_cons, List.foldl_append]
  exact hfirst

theorem carriedEncryptRound_carrying (k : Quad Word) {n : Nat} (hn : 2 ≤ n) {r : RingState}
    (hlen : r.w.length = n) :
    carriedEncryptRound k n (carrying (n - 1) r) = carrying (n - 1) (cEncryptRound k n r) :=
  carriedEncryptPass_closes k (r.sum + delta) (roundIndex (r.sum + delta)) hn hlen

/-- The decrement comes after the pass and leaves the carried word as it is. -/
theorem carriedDecryptRound_carrying (k : Quad Word) {n : Nat} (hn : 2 ≤ n) {r : RingState}
    (hlen : r.w.length = n) :
    carriedDecryptRound k n (carrying 0 r) = carrying 0 (cDecryptRound k n r) :=
  congrArg (fun c : CarriedState => { c with sum := r.sum - delta })
    (carriedDecryptPass_closes k r.sum (roundIndex r.sum) hn hlen)

/-- A loop follows another through a map of their states when one round does so from every state with
a property that rounds keep. -/
theorem repeatTimes_map {σ τ : Type} {f : σ → σ} {g : τ → τ} {φ : σ → τ} {P : σ → Prop}
    (hkeep : ∀ s, P s → P (f s)) (hround : ∀ s, P s → g (φ s) = φ (f s)) (n : Nat) {s : σ}
    (hs : P s) : repeatTimes g n (φ s) = φ (repeatTimes f n s) := by
  induction n with
  | zero => rfl
  | succ n ih =>
    rw [repeatTimes_succ', ih, hround _ (repeatTimes_keeps hkeep n s hs), repeatTimes_succ']

/-- Settles O42: round by round, the carried word being that of the ring written last. -/
theorem carriedFormEqualsIndexForm : Obligations.CarriedFormEqualsIndexForm := by
  unfold Obligations.CarriedFormEqualsIndexForm
  intro k n block hn hblock
  have hlen : (bytesToWords block).length = n := by rw [length_bytesToWords]; omega
  constructor
  · have hloop := repeatTimes_map (φ := carrying (n - 1)) (P := fun r => r.w.length = n)
      (fun r hr => (length_cEncryptRound k n r).trans hr)
      (fun r hr => carriedEncryptRound_carrying k hn hr) (roundsC n)
      (s := ⟨bytesToWords block, 0⟩) hlen
    exact congrArg (fun c : CarriedState => wordsToBytes c.w) hloop
  · have hloop := repeatTimes_map (φ := carrying 0) (P := fun r => r.w.length = n)
      (fun r hr => (length_cDecryptRound k n r).trans hr)
      (fun r hr => carriedDecryptRound_carrying k hn hr) (roundsC n)
      (s := ⟨bytesToWords block, deltaTimes (roundsC n)⟩) hlen
    exact congrArg (fun c : CarriedState => wordsToBytes c.w) hloop

/-! ## The rounds of engine C word by word (43_cipher_c.md R142 to R145) -/

/-- Settles O39: the shifts as products and quotients; the key index is a number below 4, whatever `p`. -/
theorem mixingFunctionInNumbers : Obligations.MixingFunctionInNumbers := by
  unfold Obligations.MixingFunctionInNumbers
  intro k v0 v1 sum kw p e hkw
  have hindex : (BitVec.ofNat 2 p ^^^ e).toNat = (p % 4) ^^^ e.toNat := by
    rw [BitVec.toNat_xor, BitVec.toNat_ofNat]
  have hkey : k.get (BitVec.ofNat 2 p ^^^ e) = kw := by
    rw [← hindex, getElem?_toList_quad] at hkw
    exact Option.some.inj hkw
  simp only [mx, hkey, BitVec.toNat_xor, BitVec.toNat_add, BitVec.toNat_shiftLeft,
    BitVec.toNat_ushiftRight, Nat.shiftLeft_eq, Nat.shiftRight_eq_div_pow]

theorem toNat_roundIndex (sum : Word) : (roundIndex sum).toNat = sum.toNat / 4 % 4 := by
  rw [roundIndex, BitVec.toNat_setWidth, BitVec.toNat_ushiftRight, Nat.shiftRight_eq_div_pow]

theorem wordAt_foldl_of_not_mem {f : List Word → Nat → List Word}
    (hf : ∀ w p i, i ≠ p → wordAt (f w p) i = wordAt w i) {ps : List Nat} {i : Nat} (hi : i ∉ ps)
    (w : List Word) : wordAt (ps.foldl f w) i = wordAt w i := by
  induction ps generalizing w with
  | nil => rfl
  | cons p rest ih =>
    obtain ⟨hne, hrest⟩ := not_or.mp (mt List.mem_cons.mpr hi)
    rw [List.foldl_cons, ih hrest, hf w p i hne]

/-- In the middle of a pass a word is the one the whole pass leaves where the pass has been, and the one
it found elsewhere. -/
theorem wordAt_foldl_before {f : List Word → Nat → List Word}
    (hf : ∀ w p i, i ≠ p → wordAt (f w p) i = wordAt w i) {before rest : List Nat}
    (hnodup : (before ++ rest).Nodup) (w : List Word) (i : Nat) :
    wordAt (before.foldl f w) i
      = wordAt (if i ∈ before then (before ++ rest).foldl f w else w) i := by
  split
  next hdone =>
    rw [List.foldl_append]
    exact (wordAt_foldl_of_not_mem hf (List.disjoint_of_nodup_append hnodup hdone) _).symm
  next htodo => exact wordAt_foldl_of_not_mem hf htodo w

/-- The update of one word in place, for either direction. -/
def ringStep (op : Word → Word → Word) (k : Quad Word) (n : Nat) (sum : Word) (e : BitVec 2)
    (w : List Word) (p : Nat) : List Word :=
  w.set p (op (wordAt w p) (mixAt k n sum e w p))

theorem cEncryptStep_eq_ringStep : cEncryptStep = ringStep (· + ·) := rfl

theorem cDecryptStep_eq_ringStep : cDecryptStep = ringStep (· - ·) := rfl

theorem wordAt_ringStep_of_ne (op : Word → Word → Word) (k : Quad Word) (n : Nat) (sum : Word)
    (e : BitVec 2) (w : List Word) (p i : Nat) (h : i ≠ p) :
    wordAt (ringStep op k n sum e w p) i = wordAt w i := wordAt_set_of_ne _ h

/-- A pass over distinct positions updates the word at `p` from its old value and from neighbours that are
new where the pass has been before `p`, and old elsewhere. -/
theorem wordAt_ringPass (op : Word → Word → Word) (k : Quad Word) (sum : Word) (e : BitVec 2)
    {n p : Nat} {w : List Word} (hp : p < w.length) {before after : List Nat}
    (hnodup : (before ++ p :: after).Nodup) {w' : List Word}
    (hw' : (before ++ p :: after).foldl (ringStep op k n sum e) w = w') :
    wordAt w' p = op (wordAt w p)
      (mx k (wordAt (if (p + 1) % n ∈ before then w' else w) ((p + 1) % n))
        (wordAt (if (p + n - 1) % n ∈ before then w' else w) ((p + n - 1) % n)) sum p e) := by
  have hf := wordAt_ringStep_of_ne op k n sum e
  have hmid := wordAt_foldl_before hf hnodup w
  have hbefore : p ∉ before := fun hmem =>
    List.disjoint_of_nodup_append hnodup hmem List.mem_cons_self
  have hafter : p ∉ after := (List.nodup_cons.mp hnodup.of_append_right).1
  have hlen : p < (before.foldl (ringStep op k n sum e) w).length := by
    rwa [length_foldl_set (ringStep op k n sum e) fun _ _ => List.length_set]
  rw [hw'] at hmid
  rw [← hmid, ← hmid, ← hw', List.foldl_append, List.foldl_cons,
    wordAt_foldl_of_not_mem hf hafter, ringStep, wordAt_set_same _ hlen,
    wordAt_foldl_of_not_mem hf hbefore, mixAt]

theorem range_split {n p : Nat} (hp : p < n) :
    List.range n = List.range p ++ p :: List.range' (p + 1) (n - (p + 1)) := by
  have hlen : n = p + (n - (p + 1) + 1) := by omega
  conv_lhs => rw [hlen]
  rw [List.range_add, ← List.range'_eq_map_range, List.range'_succ]

theorem wordAt_ite_of_iff {c d : Prop} [Decidable c] [Decidable d] (h : d ↔ c) (w w' : List Word)
    (i j : Nat) : wordAt (if d then w' else w) (if c then i else j)
      = if c then wordAt w' i else wordAt w j := by
  simp only [h]
  split <;> rfl

theorem wordAt_ite_of_iff_not {c d : Prop} [Decidable c] [Decidable d] (h : d ↔ ¬c) (w w' : List Word)
    (i j : Nat) : wordAt (if d then w' else w) (if c then i else j)
      = if c then wordAt w i else wordAt w' j := by
  simp only [h, ite_not]
  split <;> rfl

/-- Going forward the left neighbour is new, but for the first position's, and the right one is old, but
for the last position's. -/
theorem wordAt_cEncryptRound (k : Quad Word) {n p : Nat} {r : RingState} (hn : 2 ≤ n)
    (hlen : r.w.length = n) (hp : p < n) :
    wordAt (cEncryptRound k n r).w p = wordAt r.w p
      + mx k (if p + 1 = n then wordAt (cEncryptRound k n r).w 0 else wordAt r.w (p + 1))
        (if p = 0 then wordAt r.w (n - 1) else wordAt (cEncryptRound k n r).w (p - 1))
        (r.sum + delta) p (roundIndex (r.sum + delta)) := by
  have hpass : (List.range p ++ p :: List.range' (p + 1) (n - (p + 1))).foldl
      (ringStep (· + ·) k n (r.sum + delta) (roundIndex (r.sum + delta))) r.w
        = (cEncryptRound k n r).w := by
    rw [← range_split hp, ← cEncryptStep_eq_ringStep]
    rfl
  rw [wordAt_ringPass (· + ·) k _ _ (by omega) (range_split hp ▸ List.nodup_range) hpass,
    right_neighbour hp, left_neighbour hp]
  simp only [List.mem_range]
  rw [wordAt_ite_of_iff (by split <;> omega), wordAt_ite_of_iff_not (by split <;> omega)]

/-- Going backward the right neighbour is new, but for the last position's, and the left one is old, but
for the first position's. -/
theorem wordAt_cDecryptRound (k : Quad Word) {n p : Nat} {r : RingState} (hn : 2 ≤ n)
    (hlen : r.w.length = n) (hp : p < n) :
    wordAt (cDecryptRound k n r).w p = wordAt r.w p
      - mx k (if p + 1 = n then wordAt r.w 0 else wordAt (cDecryptRound k n r).w (p + 1))
        (if p = 0 then wordAt (cDecryptRound k n r).w (n - 1) else wordAt r.w (p - 1))
        r.sum p (roundIndex r.sum) := by
  have hsplit : (List.range n).reverse
      = (List.range' (p + 1) (n - (p + 1))).reverse ++ p :: (List.range p).reverse := by
    rw [range_split hp]
    simp
  have hpass : ((List.range' (p + 1) (n - (p + 1))).reverse ++ p :: (List.range p).reverse).foldl
      (ringStep (· - ·) k n r.sum (roundIndex r.sum)) r.w = (cDecryptRound k n r).w := by
    rw [← hsplit, ← cDecryptStep_eq_ringStep]
    rfl
  rw [wordAt_ringPass (· - ·) k _ _ (by omega)
      (hsplit ▸ List.nodup_reverse.mpr List.nodup_range) hpass,
    right_neighbour hp, left_neighbour hp]
  simp only [List.mem_reverse, List.mem_range'_1]
  rw [wordAt_ite_of_iff_not (by split <;> omega), wordAt_ite_of_iff (by split <;> omega)]

/-- Settles O40: the words after each round of the loop are the words of the statement. -/
theorem roundsOfCipherC : Obligations.RoundsOfCipherC := by
  unfold Obligations.RoundsOfCipherC
  refine ⟨toNat_roundIndex, fun k n block hn hblock => ?_, fun k n block hn hblock => ?_, by decide⟩
  · have hlen (r : Nat) :
        (repeatTimes (cEncryptRound k n) r ⟨bytesToWords block, 0⟩).w.length = n := by
      rw [length_repeatTimes (length_cEncryptRound k n), length_bytesToWords]
      omega
    have hwords (r : Nat) := map_wordAt_range (hlen r)
    refine ⟨fun r => wordAt (repeatTimes (cEncryptRound k n) r ⟨bytesToWords block, 0⟩).w,
      (hwords 0).symm, fun r p _ hp => ?_, congrArg wordsToBytes (hwords (roundsC n)).symm⟩
    simp only [repeatTimes_succ', deltaTimes_succ, ← sum_cEncryptRounds k n r (bytesToWords block)]
    exact wordAt_cEncryptRound k hn (hlen r) hp
  · have hlen (j : Nat) : (repeatTimes (cDecryptRound k n) j
        ⟨bytesToWords block, deltaTimes (roundsC n)⟩).w.length = n := by
      rw [length_repeatTimes (length_cDecryptRound k n), length_bytesToWords]
      omega
    have hwords (j : Nat) := map_wordAt_range (hlen j)
    refine ⟨fun j => wordAt (repeatTimes (cDecryptRound k n) j
        ⟨bytesToWords block, deltaTimes (roundsC n)⟩).w,
      (hwords 0).symm, fun j p hj hp => ?_, congrArg wordsToBytes (hwords (roundsC n)).symm⟩
    simp only [repeatTimes_succ', ← sum_cDecryptRounds k n (bytesToWords block) (Nat.le_of_lt hj)]
    exact wordAt_cDecryptRound k hn (hlen j) hp

/-- Settles O38: `52 / n` is 1 up to 52 and 0 beyond. -/
theorem roundCountOfC : Obligations.RoundCountOfC := by
  unfold Obligations.RoundCountOfC
  refine ⟨fun n _ => rfl, by decide, fun n hlow hhigh => ?_, fun n hlow => ?_⟩
  · rw [roundsC, Nat.div_eq_of_lt_le (k := 1) (by omega) (by omega)]
  · rw [roundsC, Nat.div_eq_of_lt (by omega)]

/-! ## The commands of engine C (43_cipher_c.md R146 to R149) -/

theorem exec_cConstruct (keyAddr : Nat) (keyLen blockSize : Word) (s : State) :
    exec (.cConstruct keyAddr keyLen blockSize) s =
      guarded [keyLenCheck keyLen, blockSizeCheck s.cfg blockSize, rangeCheck 0 s.cfg keyAddr 16]
        (fun s => complete { s with c := EngineC.construct (memReadKey s.mem keyAddr) blockSize })
        s := rfl

theorem exec_cBlocksize (s : State) :
    exec .cBlocksize s = guarded [instanceCheck s.c.valid] (completeResult s.c.bs) s := rfl

theorem exec_cEncrypt (dst : Nat) (dstLen : Word) (src : Nat) (srcLen : Word) (s : State) :
    exec (.cEncrypt dst dstLen src srcLen) s =
      guarded (instanceCheck s.c.valid :: transformChecks s.cfg s.c.bs.toNat dst dstLen src srcLen)
        (fun s => storeAndComplete dst
          (cEncryptBlock s.c.k (s.c.bs.toNat / 4) (memRead s.mem src s.c.bs.toNat)) s) s := rfl

theorem exec_cDecrypt (dst : Nat) (dstLen : Word) (src : Nat) (srcLen : Word) (s : State) :
    exec (.cDecrypt dst dstLen src srcLen) s =
      guarded (instanceCheck s.c.valid :: transformChecks s.cfg s.c.bs.toNat dst dstLen src srcLen)
        (fun s => storeAndComplete dst
          (cDecryptBlock s.c.k (s.c.bs.toNat / 4) (memRead s.mem src s.c.bs.toNat)) s) s := rfl

theorem blockSizeCheck_fail {cfg : Config} {blockSize : Word}
    (h : blockSize.toNat < 8 ∨ blockSize.toNat % 4 ≠ 0 ∨ cfg.nmax < blockSize.toNat / 4) :
    (blockSizeCheck cfg blockSize).fails = true := by
  rw [← Bool.not_eq_false, blockSizeCheck_pass_iff]
  omega

/-- Settles O43: the three checks in order, then the key words, `C.BS` and `C.valid`. -/
theorem cConstructCommand : Obligations.CConstructCommand := by
  unfold Obligations.CConstructCommand
  intro s keyAddr keyLen blockSize
  rw [exec_cConstruct]
  refine ⟨fun hlen => guarded_fail (keyLenCheck_fail hlen), fun hlen hsize => ?_,
    fun hlen hmin hwhole hmax hrange => ?_, fun hlen hmin hwhole hmax hrange => ?_⟩
  · rw [guarded_pass (keyLenCheck_pass hlen)]
    exact guarded_fail (blockSizeCheck_fail hsize)
  · rw [guarded_pass (keyLenCheck_pass hlen),
      guarded_pass ((blockSizeCheck_pass_iff _ _).mpr ⟨hmin, hwhole, hmax⟩)]
    exact guarded_fail (rangeCheck_fail hrange)
  · rw [guarded_pass (keyLenCheck_pass hlen),
      guarded_pass ((blockSizeCheck_pass_iff _ _).mpr ⟨hmin, hwhole, hmax⟩),
      guarded_pass (rangeCheck_pass hrange)]
    rfl

/-- Settles O44: the one check, then `RESULT`. -/
theorem cBlocksizeCommand : Obligations.CBlocksizeCommand := by
  unfold Obligations.CBlocksizeCommand
  intro s
  rw [exec_cBlocksize]
  refine ⟨fun hnone => guarded_fail (instanceCheck_fail hnone), fun hvalid => ?_⟩
  rw [guarded_pass (instanceCheck_pass hvalid)]
  rfl

/-- Settles O45: the five checks in order, the lengths against `C.BS`, then one `MemWrite` of the encrypted
block. -/
theorem cEncryptCommand : Obligations.CEncryptCommand := by
  unfold Obligations.CEncryptCommand
  intro s dst dstLen src srcLen
  exact transform_clauses (exec_cEncrypt dst dstLen src srcLen s)

/-- Settles O46: the five checks in order, the lengths against `C.BS`, then one `MemWrite` of the decrypted
block. -/
theorem cDecryptCommand : Obligations.CDecryptCommand := by
  unfold Obligations.CDecryptCommand
  intro s dst dstLen src srcLen
  exact transform_clauses (exec_cDecrypt dst dstLen src srcLen s)

end Sys2Proof.Machine

namespace Sys2Proof.Machine

/-! ## How a command completes (60_exceptions.md R170, R178, R184) -/

/-- Settles O49: a command whose checks all pass completes with `OK`; any other completion is what the first
failing check raises. -/
theorem refusedCommandChangesOnlyStatus : Obligations.RefusedCommandChangesOnlyStatus := by
  unfold Obligations.RefusedCommandChangesOnlyStatus
  intro i s t h ht
  obtain ⟨-, rfl⟩ | ⟨c, -, -, rfl⟩ := exec_cases h
  · exact absurd (status_effectOf s i) ht
  · rw [answered_status, answered_info]

theorem toNat_code_le_seven (st : Status) : st.code.toNat ≤ 7 := by
  cases st <;> decide

/-- `INFO` is 0 on an `OK` completion (10_state.md R29). -/
theorem info_eq_zero_of_ok {i : Instr} {s t : State} (h : exec i s = .next t) (ht : t.status = .ok) :
    t.info = 0 := by
  obtain ⟨-, rfl⟩ := exec_ok h ht
  exact info_effectOf s i

/-- No command writes the model's own fields. -/
theorem exec_keeps_modelFields {i : Instr} {s t : State} (h : exec i s = .next t) :
    t.pending = s.pending ∧ t.cfg = s.cfg ∧ t.tick = s.tick := by
  obtain ⟨-, rfl⟩ | ⟨c, -, -, rfl⟩ := exec_cases h
  · exact ⟨pending_effectOf s i, cfg_effectOf s i, tick_effectOf s i⟩
  · exact ⟨answered_pending .., answered_cfg .., answered_tick ..⟩

/-- What the host does next makes no difference to a command: it runs to its end before the host's next
turn (20_memory.md R57). -/
theorem exec_withPending {i : Instr} {s t : State} (h : exec i s = .next t) (events : List HostEvent) :
    exec i { s with pending := events } = .next { t with pending := events } := by
  refine exec_of_commutes (f := fun u => { u with pending := events }) h ?_ (fun _ _ => rfl) ?_
  · cases i <;> rfl
  · cases i <;> rfl

/-- Settles O50: the next state is the command's outcome. -/
theorem everyCommandCompletes : Obligations.EveryCommandCompletes := by
  unfold Obligations.EveryCommandCompletes
  refine ⟨by decide, fun i s => ?_⟩
  have h := exec_eq_outcomeOf i s
  obtain ⟨hpending, hcfg, htick⟩ := exec_keeps_modelFields h
  exact ⟨outcomeOf s i, h, toNat_code_le_seven _, info_eq_zero_of_ok h, hpending, hcfg, htick,
    exec_withPending h⟩

end Sys2Proof.Machine

namespace Sys2Proof.Machine

/-! ## Reset (70_reset_and_hazards.md R200, R201) -/

/-- A command the CORE takes runs to its completion, be its code legal or not, and leaves the host's further
events alone. -/
theorem runCommand_completes (c : Command) (s : State) :
    ∃ t, runCommand c s = .next t ∧ t.pending = s.pending := by
  unfold runCommand
  cases decode s.cfg c with
  | error e => exact ⟨_, rfl, raise_pending ..⟩
  | ok i =>
    have h := exec_eq_outcomeOf i s
    obtain ⟨hpending, -, -⟩ := exec_keeps_modelFields h
    exact ⟨_, h, hpending⟩

theorem resetDuringCommand_of_decode {c : Command} {i : Instr} {s : State}
    (h : decode s.cfg c = .ok i) :
    resetDuringCommand c s = resetCore { s with mem := abortedMemory i s } := by
  simp only [resetDuringCommand, h]

/-- A step with reset arriving during a command always answers a next state. -/
theorem step_of_resetDuring {s : State} {c : Command} {rest : List HostEvent}
    (h : s.pending = .resetDuring c :: rest) :
    step s = .next (resetDuringCommand c { s with pending := rest, tick := s.tick + 1 }) :=
  step_of_pending h

/-- Reset during a command is the reset event on some memory. -/
theorem resetDuringCommand_eq_resetCore (c : Command) (s : State) :
    ∃ m, resetDuringCommand c s = resetCore { s with mem := m } := by
  cases h : decode s.cfg c with
  | error e => exact ⟨s.mem, by simp only [resetDuringCommand, h]⟩
  | ok i => exact ⟨_, resetDuringCommand_of_decode h⟩

/-- R201: "each byte of the command's destination buffer in `M` holds either its value from before the
command or the value the command would have written"; every other byte is as before. -/
theorem read_abortedMemory {i : Instr} {s t : State} (h : exec i s = .next t) (x : Nat) :
    (abortedMemory i s).read x = s.mem.read x ∨
      ((destination s i).1 ≤ x ∧ x < (destination s i).1 + (destination s i).2 ∧
        (abortedMemory i s).read x = t.mem.read x) := by
  simp only [abortedMemory, h]
  exact read_mixBytes ..

theorem aValid_effectOf (s : State) (i : Instr) (h : s.a.valid = true) :
    (effectOf s i).a.valid = true := by
  cases i with
  | aConstruct => rfl
  | _ => exact h

/-- A wipe keeps `B.valid`: a wiped engine still has its instance. -/
theorem bValid_effectOf (s : State) (i : Instr) (h : s.b.valid = true) :
    (effectOf s i).b.valid = true := by
  cases i with
  | bConstruct => rfl
  | _ => exact h

theorem cValid_effectOf (s : State) (i : Instr) (h : s.c.valid = true) :
    (effectOf s i).c.valid = true := by
  cases i with
  | cConstruct => rfl
  | _ => exact h

/-- R200: "Reset is the only way to return an engine to the no-instance state." -/
theorem step_keeps_valid {s t : State} (h : step s = .next t)
    (hreset : ∀ rest, s.pending ≠ .reset :: rest)
    (hduring : ∀ c rest, s.pending ≠ .resetDuring c :: rest) :
    (s.a.valid = true → t.a.valid = true) ∧ (s.b.valid = true → t.b.valid = true) ∧
      (s.c.valid = true → t.c.valid = true) := by
  obtain ⟨ha, hb, hc⟩ | ⟨c, rest, i, -, -, rfl⟩ := step_keeps_engines_or_effect h hreset hduring
  · rw [ha, hb, hc]
    exact ⟨id, id, id⟩
  · exact ⟨fun hv => aValid_effectOf _ i hv, fun hv => bValid_effectOf _ i hv,
      fun hv => cValid_effectOf _ i hv⟩

/-- Settles O11: reset, also during a command, is `resetCore` on some memory; a command after it completes;
and a step that is no reset keeps the engines or has a command's effect, which clears no valid flag. -/
theorem resetEventClearsRegistersAndKeepsMemory :
    Obligations.ResetEventClearsRegistersAndKeepsMemory := by
  unfold Obligations.ResetEventClearsRegistersAndKeepsMemory
  refine ⟨fun s rest hp => ?_, fun s c rest hp => ?_, fun s c rest hp => ?_,
    fun _ _ => step_keeps_valid⟩
  · exact ⟨_, step_of_pending hp, rfl, rfl, rfl, rfl, rfl, rfl, rfl, rfl, rfl, rfl⟩
  · obtain ⟨m, hm⟩ := resetDuringCommand_eq_resetCore c { s with pending := rest, tick := s.tick + 1 }
    exact ⟨_, (step_of_resetDuring hp).trans (congrArg Host.Outcome.next hm), rfl, rfl, rfl, rfl, rfl,
      rfl, rfl, rfl⟩
  · obtain ⟨u, hu, hpending⟩ := runCommand_completes c
      { resetCore { s with pending := .command c :: rest, tick := s.tick + 1 } with
        pending := rest, tick := s.tick + 1 + 1 }
    exact ⟨_, u, step_of_pending hp, hu, hpending⟩

/-- Settles O12: the step is `resetCore` on the aborted command's memory. -/
theorem resetDuringCommandLeavesOldOrNewBytes :
    Obligations.ResetDuringCommandLeavesOldOrNewBytes := by
  unfold Obligations.ResetDuringCommandLeavesOldOrNewBytes
  rintro s s' t c rest i hp hd rfl h
  have haborted := resetDuringCommand_of_decode
    (s := { s with pending := rest, tick := s.tick + 1 }) hd
  exact ⟨_, (step_of_resetDuring hp).trans (congrArg Host.Outcome.next haborted), rfl, rfl, rfl, rfl, rfl,
    rfl, rfl, read_abortedMemory h⟩

end Sys2Proof.Machine
